-- ==== Sys2Proof/Word.lean ====
section
/-! DEFINITION. The word of this hardware: the byte (00_scope R8, R10). Every quantity is an unsigned
8-bit value and all arithmetic on it is modulo 256 (44_serial_protocol_framer R204). -/

namespace Sys2Proof

/-- A byte: an unsigned integer in 0..255 (00_scope R10). -/
abbrev Byte := BitVec 8

/-- The sum of a byte list modulo 256 (00_scope R10, R15; it wraps silently, 10_state R34). -/
def sumBytes : List Byte → Byte
  | [] => 0
  | b :: bs => b + sumBytes bs

end Sys2Proof
end

