-- ==== Sys2Proof/Config.lean ====
section
/-! DEFINITION. What is fixed for the machine (00_scope R8, R9) and what the spec leaves free: the
answers of the transport (20_memory R52, R54) and the values the spec says are no values
(10_state R26, R37, R41). -/

namespace Sys2Proof

/-- An answer of the transport to a `RawRead` (20_memory R52). -/
inductive RxAnswer where
  | byte (b : Byte)
  | timeout
  | closed
  | fatal
deriving DecidableEq, Repr, Inhabited

/-- An answer of the transport to a `RawWrite` (20_memory R54). -/
inductive TxAnswer where
  | ok
  | fatal
deriving DecidableEq, Repr, Inhabited

/-- The working latches (10_state R27), with the spec's names in small letters. `dbuf` lists the
entries `DBUF[0]`, `DBUF[1]`, … that hold a value, in index order; an entry at or beyond its end
holds no value (10_state R37; log 17). -/
structure Latches where
  l : Byte
  s : Byte
  q : Byte
  c : Byte
  k : Byte
  acc : Byte
  idx : Byte
  dbuf : List Byte
deriving DecidableEq, Repr, Inhabited

namespace Config

/-- `SYNC`, the frame start literal (00_scope R8). UNVERIFIED literal (R19; log 18). -/
def syncByte : Byte := 0xE0

/-- `ESC`, the escape sentinel (00_scope R8). UNVERIFIED literal (R19; log 18). -/
def escByte : Byte := 0xD0

/-- `OVERHEAD`: the length field is `OVERHEAD + len(data)` (00_scope R8). UNVERIFIED (R19; log 18). -/
def overhead : Nat := 4

/-- `MAX_DATA`, the largest number of data bytes in one frame (00_scope R9). -/
def maxData : Nat := 251

/-- `SEQ_RESET`, the open parameter of 00_scope R9 at the default the spec names. DESIGN CHOICE
(log 1): no statement rests on this value (70_reset_and_hazards R253). -/
def seqReset : Byte := 0x00

/-- What the latches hold when they 'hold no value' for the n-th time (10_state R26, R41;
93_implementation_defined U11): a free value, so that nothing can be proved of it. -/
opaque deadLatches : Nat → Latches

/-- What `DBUF[i]` reads as where it holds no value (10_state R37): a free value. -/
opaque noValue : Nat → Byte

/-- The environment's n-th answer to a `RawRead` that no queued answer serves, or that it has not
answered yet (20_memory R52, R53; 70_reset_and_hazards R266): a free value. -/
opaque rxAnswer : Nat → Option RxAnswer

/-- The environment's n-th answer to a `RawWrite` that no queued answer serves, or that it has not
answered yet (20_memory R54): a free value. -/
opaque txAnswer : Nat → Option TxAnswer

end Config

end Sys2Proof
end

