-- ==== Sys2Proof/Syntax.lean ====
section
/-! DEFINITION. The instructions: one constructor per row of spec/opcode_table.json. -/

namespace Sys2Proof

/-- The rows of the opcode table. Host operations: 30_encoding R82 to R84. Wire symbols: R78, R79.
The frame: R70. Command codes: R80. Pseudo-operations: R94. -/
inductive Instr where
  /-- `WRB v`: write one logical byte through the escaper (R104). -/
  | wrb (v : Byte)
  /-- `RDB`: read one logical byte through the escaper (R105). -/
  | rdb
  /-- `ENC sub, cmd, data`: build and transmit one frame (R120). -/
  | enc (sub cmd : Byte) (data : List Byte)
  /-- `DEC`: find and parse one frame (R140). -/
  | dec
  /-- `RDREG r`: read a register (R175). -/
  | rdreg (r : BitVec 2)
  /-- `WRREG r, v`: write a register (R176). -/
  | wrreg (r : BitVec 2) (v : Byte)
  /-- `SRST`: session reset (R179). -/
  | srst
  /-- An operation word that is not one of the seven operations (R91), with the word. -/
  | reserved (w : Byte)
  /-- `SYNC`: the raw byte 0xE0 that ends the hunt (R78). -/
  | sync
  /-- `SKIP`: a raw byte other than 0xE0 in the hunt (R78). -/
  | skip (b : Byte)
  /-- `ESC`: the sentinel 0xD0 in a body, `ESCP = 0` (R78). -/
  | esc
  /-- `LIT`: a raw byte other than 0xD0 in a body, `ESCP = 0` (R78). -/
  | lit (b : Byte)
  /-- `FOLLOW`: any raw byte in a body, `ESCP = 1` (R78). -/
  | follow (b : Byte)
  /-- `TXSYNC`: the frame delimiter, written without the escaper (R79). -/
  | txsync
  /-- `TXESC_D0`: the logical byte 0xD0 written as `D0 CF` (R79). -/
  | txescD0
  /-- `TXESC_E0`: the logical byte 0xE0 written as `D0 DF` (R79). -/
  | txescE0
  /-- `TXLIT`: any other logical byte written as itself (R79). -/
  | txlit (b : Byte)
  /-- `FRAME`: a whole frame on the wire (R70): length, sub, seqnum, command, data, checksum. -/
  | frame (l s q c : Byte) (d : List Byte) (k : Byte)
  /-- `CMD_RESET`, 0x62, at logical offset 4 of a frame (R80). -/
  | cmdReset
  /-- `CMD_LED`, 0x81 (R80). -/
  | cmdLed
  /-- `CMD_FELICA_PROBE`, 0x42 (R80). -/
  | cmdFelicaProbe
  /-- `CMD_ALT_PROBE`, 0x40 (R80). -/
  | cmdAltProbe
  /-- `RESET_CMD` (R194). -/
  | resetCmd
  /-- `FELICA_PROBE` (R196). -/
  | felicaProbe
  /-- `LED_SET red, green, blue` (R197). -/
  | ledSet (red green blue : Byte)
  /-- `ALT_PROBE_40` (R198). -/
  | altProbe40
  /-- `EXCHANGE sub, cmd, data` (R200). -/
  | exchange (sub cmd : Byte) (data : List Byte)
deriving DecidableEq, Repr

/-- The formats of the opcode table. What a byte means depends on the place it stands in: on the host
port (30_encoding R82), on RX_RAW in one of the three reading states of R78, on TX_RAW (R79), as the
logical bytes of a frame (R70), as the command byte of a frame (R80), or as the host bytes of a
pseudo-operation (R94). -/
inductive Format where
  | hostop
  | rxHunt
  | rxFirst
  | rxFollow
  | txsym
  | frame
  | cmdcode
  | pseudo
deriving DecidableEq, Repr

/-- The format of the opcode-table row of an instruction. -/
def formatOf : Instr → Format
  | .wrb _ => .hostop
  | .rdb => .hostop
  | .enc _ _ _ => .hostop
  | .dec => .hostop
  | .rdreg _ => .hostop
  | .wrreg _ _ => .hostop
  | .srst => .hostop
  | .reserved _ => .hostop
  | .sync => .rxHunt
  | .skip _ => .rxHunt
  | .esc => .rxFirst
  | .lit _ => .rxFirst
  | .follow _ => .rxFollow
  | .txsync => .txsym
  | .txescD0 => .txsym
  | .txescE0 => .txsym
  | .txlit _ => .txsym
  | .frame _ _ _ _ _ _ => .frame
  | .cmdReset => .cmdcode
  | .cmdLed => .cmdcode
  | .cmdFelicaProbe => .cmdcode
  | .cmdAltProbe => .cmdcode
  | .resetCmd => .pseudo
  | .felicaProbe => .pseudo
  | .ledSet _ _ _ => .pseudo
  | .altProbe40 => .pseudo
  | .exchange _ _ _ => .pseudo

end Sys2Proof
end

