-- ==== Sys2Proof/WellFormed.lean ====
section
/-! DEFINITION. Which terms of Instr are instructions of the spec: the limits the opcode table and
30_encoding put on the operands. -/

namespace Sys2Proof

/-- The operation words the table of 30_encoding R84 assigns to an operation, register number 3 among
them (R91: `RDREG` and `WRREG` with `r = 11` are refused for the register, not for the word). -/
def assignedWords : List Byte :=
  [0x00, 0x20, 0x40, 0x60, 0x80, 0x81, 0x82, 0x83, 0xA0, 0xA1, 0xA2, 0xA3, 0xC0]

/-- The words refused with `IllegalOp`: every word R84 does not assign (30_encoding R91). -/
def illegalWord (w : Byte) : Bool := !(assignedWords.contains w)

/-- The frame checksum of 00_scope R15 and 30_encoding R76. -/
def chkSum (l s q c : Byte) (d : List Byte) : Byte := l + s + q + c + sumBytes d

/-- The operand limits of each row: the count byte of `ENC` and of `EXCHANGE` (30_encoding R83;
opcode_table's repeat 0 to 251), the words of R91, the raw bytes of each wire symbol (R78, R79), and
the length and checksum fields of a frame (R70, R75, R76). -/
def wellFormed : Instr → Bool
  | .wrb _ => true
  | .rdb => true
  | .enc _ _ data => decide (data.length ≤ 255)
  | .dec => true
  | .rdreg _ => true
  | .wrreg _ _ => true
  | .srst => true
  | .reserved w => illegalWord w
  | .sync => true
  | .skip b => b != Config.syncByte
  | .esc => true
  | .lit b => b != Config.escByte
  | .follow _ => true
  | .txsync => true
  | .txescD0 => true
  | .txescE0 => true
  | .txlit b => b != Config.escByte && b != Config.syncByte
  | .frame l s q c d k =>
      decide (l.toNat = d.length + Config.overhead) && k == chkSum l s q c d
  | .cmdReset => true
  | .cmdLed => true
  | .cmdFelicaProbe => true
  | .cmdAltProbe => true
  | .resetCmd => true
  | .felicaProbe => true
  | .ledSet _ _ _ => true
  | .altProbe40 => true
  | .exchange _ _ data => decide (data.length ≤ Config.maxData)

/-- A well-formed instruction. -/
abbrev WellFormed (i : Instr) : Prop := wellFormed i = true

end Sys2Proof
end

