-- ==== Sys2Proof/Decode.lean ====
section
/-! DEFINITION. The encodings (30_encoding): the escape of one byte, the frame as raw bytes, the
decoder of the host operation bytes, the decoders of the other formats, the encoder, and the reading
of a word of the opcode table. -/

namespace Sys2Proof

/-! ### The escape of one logical byte and the frame on the wire -/

/-- Does a logical byte take the format PAIR on transmit (30_encoding R72, R79)? -/
def needsEscape (v : Byte) : Bool := v == Config.escByte || v == Config.syncByte

/-- `Esc(v)`: the raw bytes of one logical byte (00_scope R15, 30_encoding R72, R77). -/
def escBytes (v : Byte) : List Byte :=
  if needsEscape v then [Config.escByte, v - 1] else [v]

/-- The raw bytes of a list of logical bytes, each through the escaper (30_encoding R73). -/
def escList : List Byte → List Byte
  | [] => []
  | v :: vs => escBytes v ++ escList vs

/-- The logical bytes a receiver makes of raw body bytes, read with `ESCP` as given (30_encoding R78, R87
to R89); none where the last sentinel has no follow byte. -/
def unescapeFrom : (escp : Bool) → List Byte → Option (List Byte)
  | false, [] => some []
  | true, [] => none
  | true, f :: rest => (unescapeFrom false rest).map (fun vs => (f + 1) :: vs)
  | false, b :: rest =>
    if b = Config.escByte then unescapeFrom true rest
    else (unescapeFrom false rest).map (fun vs => b :: vs)

/-- The logical bytes of raw body bytes, each one or two raw bytes long (30_encoding R92). -/
def unescape (raw : List Byte) : Option (List Byte) := unescapeFrom false raw

/-- The length field of a frame with n data bytes (30_encoding R75). -/
def lengthField (n : Nat) : Byte := BitVec.ofNat 8 (n + Config.overhead)

/-- The raw bytes of a frame whose six fields are given: the sync as a raw literal, every other logical
byte through the escaper (30_encoding R70, R73). -/
def frameWire (l s q c : Byte) (d : List Byte) (k : Byte) : List Byte :=
  Config.syncByte :: escList (l :: s :: q :: c :: (d ++ [k]))

/-- `FrameBytes(S, Q, C, D)` (00_scope R15): length and checksum computed. -/
def frameBytes (s q c : Byte) (d : List Byte) : List Byte :=
  frameWire (lengthField d.length) s q c d (chkSum (lengthField d.length) s q c d)

/-! ### The host operation bytes -/

/-- Why bytes are not an instruction of a format. -/
inductive DecodeError where
  /-- No byte at all is there. -/
  | noBytes
  /-- Operand bytes the operation word asks for (30_encoding R83) are not all there. -/
  | operandsMissing
  /-- The bytes are none of the format's words. -/
  | notThisFormat
deriving DecidableEq, Repr

/-- The operation select of an operation word, bits 7:5 (30_encoding R82). -/
def opField (w : Byte) : BitVec 3 := w.extractLsb' 5 3

/-- The `zero` field of an operation word, bits 4:2 (30_encoding R82). -/
def zeroField (w : Byte) : BitVec 3 := w.extractLsb' 2 3

/-- The register field of an operation word, bits 1:0 (30_encoding R82). -/
def regField (w : Byte) : BitVec 2 := w.extractLsb' 0 2

/-- The operand bytes of `ENC` after the operation word: `sub`, `cmd`, `n`, then n data bytes
(30_encoding R83). -/
def decodeEncOperands : List Byte → Except DecodeError (Instr × List Byte)
  | sub :: cmd :: n :: more =>
    if n.toNat ≤ more.length then
      .ok (.enc sub cmd (more.take n.toNat), more.drop n.toNat)
    else .error .operandsMissing
  | _ => .error .operandsMissing

/-- The one operand byte of `WRB` and `WRREG` (30_encoding R83). -/
def decodeOneOperand (mk : Byte → Instr) : List Byte → Except DecodeError (Instr × List Byte)
  | v :: more => .ok (mk v, more)
  | [] => .error .operandsMissing

/-- The operation named by the word `w` with `zero = 000`, its operands read from the bytes after it
(30_encoding R83, R84). A word of an operation without a register number is illegal unless
`r = 00` (R91). -/
def decodeOperation (w : Byte) (rest : List Byte) : Except DecodeError (Instr × List Byte) :=
  let r := regField w
  if opField w = 4 then .ok (.rdreg r, rest)
  else if opField w = 5 then decodeOneOperand (.wrreg r) rest
  else if r ≠ 0 then .ok (.reserved w, rest)
  else if opField w = 0 then decodeOneOperand .wrb rest
  else if opField w = 1 then .ok (.rdb, rest)
  else if opField w = 2 then decodeEncOperands rest
  else if opField w = 3 then .ok (.dec, rest)
  else if opField w = 6 then .ok (.srst, rest)
  else .ok (.reserved w, rest)

/-- The decoder of the host port: the first host operation of a byte string and the bytes after it
(30_encoding R82 to R84, R91). Every word is an operation or `reserved`; the bytes are rejected by
name only where operand bytes are missing. -/
def decode : List Byte → Except DecodeError (Instr × List Byte)
  | [] => .error .noBytes
  | w :: rest =>
    if zeroField w ≠ 0 then .ok (.reserved w, rest) else decodeOperation w rest

/-! ### The wire symbols, the frame, the command codes, the pseudo-operations -/

/-- The symbol a raw byte taken from RX_RAW stands for (30_encoding R78): `hunt` is `PH = D_HUNT`. -/
def rxSymbol (hunt escp : Bool) (b : Byte) : Instr :=
  if hunt then (if b = Config.syncByte then .sync else .skip b)
  else if escp then .follow b
  else if b = Config.escByte then .esc
  else .lit b

/-- The symbol a byte to be transmitted becomes (30_encoding R79): `delimiter` is the sync that goes
without the escaper. -/
def txSymbol (delimiter : Bool) (v : Byte) : Instr :=
  if delimiter then .txsync
  else if v = Config.escByte then .txescD0
  else if v = Config.syncByte then .txescE0
  else .txlit v

/-- The symbols of R79 read back from TX_RAW: after a sentinel only the two canonical follow bytes
occur (30_encoding R72, R95). -/
def decodeTx : List Byte → Except DecodeError (Instr × List Byte)
  | [] => .error .noBytes
  | b :: rest =>
    if b = Config.syncByte then .ok (.txsync, rest)
    else if b = Config.escByte then
      match rest with
      | [] => .error .operandsMissing
      | f :: more =>
        if f = 0xCF then .ok (.txescD0, more)
        else if f = 0xDF then .ok (.txescE0, more)
        else .error .notThisFormat
    else .ok (.txlit b, rest)

/-- A frame read from its logical bytes (30_encoding R70): sync, length, sub, seqnum, command,
`length − 4` data bytes, checksum. -/
def decodeFrame : List Byte → Except DecodeError (Instr × List Byte)
  | y :: l :: s :: q :: c :: more =>
    if y ≠ Config.syncByte ∨ l.toNat < Config.overhead then .error .notThisFormat
    else
      match more.drop (l.toNat - Config.overhead) with
      | k :: rest => .ok (.frame l s q c (more.take (l.toNat - Config.overhead)) k, rest)
      | [] => .error .operandsMissing
  | [] => .error .noBytes
  | _ => .error .operandsMissing

/-- The command codes of 30_encoding R80. -/
def decodeCommand : List Byte → Except DecodeError (Instr × List Byte)
  | [] => .error .noBytes
  | c :: rest =>
    if c = 0x62 then .ok (.cmdReset, rest)
    else if c = 0x81 then .ok (.cmdLed, rest)
    else if c = 0x42 then .ok (.cmdFelicaProbe, rest)
    else if c = 0x40 then .ok (.cmdAltProbe, rest)
    else .error .notThisFormat

/-- The operation bytes of an `EXCHANGE` after the `ENC` word: the operands of `ENC`, then the word of
`DEC` and nothing more (30_encoding R94). -/
def decodeExchange (rest : List Byte) : Except DecodeError (Instr × List Byte) :=
  match decodeEncOperands rest with
  | .ok (.enc sub cmd data, [0x60]) => .ok (.exchange sub cmd data, [])
  | _ => .error .notThisFormat

/-- A pseudo-operation read from ALL its host bytes (30_encoding R94; the notes of opcode_table.json).
On the host port these bytes are read by `decode`, as the operations they stand for. -/
def decodePseudo : List Byte → Except DecodeError (Instr × List Byte)
  | [0x40, 0x00, 0x62, 0x01, 0x00] => .ok (.resetCmd, [])
  | [0x40, 0x00, 0x42, 0x01, 0x00] => .ok (.felicaProbe, [])
  | [0x40, 0x00, 0x40, 0x02, 0x01, 0x03] => .ok (.altProbe40, [])
  | [0x40, 0x08, 0x81, 0x04, 0x03, red, blue, green] => .ok (.ledSet red green blue, [])
  | 0x40 :: rest => decodeExchange rest
  | _ => .error .notThisFormat

/-- A symbol of RX_RAW from the head of a byte string, in one reading state of 30_encoding R78. -/
def decodeRx (hunt escp : Bool) : List Byte → Except DecodeError (Instr × List Byte)
  | [] => .error .noBytes
  | b :: rest => .ok (rxSymbol hunt escp b, rest)

/-- The decoder of each format. -/
def decodeAs : Format → List Byte → Except DecodeError (Instr × List Byte)
  | .hostop, bs => decode bs
  | .rxHunt, bs => decodeRx true false bs
  | .rxFirst, bs => decodeRx false false bs
  | .rxFollow, bs => decodeRx false true bs
  | .txsym, bs => decodeTx bs
  | .frame, bs => decodeFrame bs
  | .cmdcode, bs => decodeCommand bs
  | .pseudo, bs => decodePseudo bs

/-! ### The encoder -/

/-- The host bytes of `ENC sub, cmd, data` (30_encoding R83, R84). -/
def encodeEnc (sub cmd : Byte) (data : List Byte) : List Byte :=
  0x40 :: sub :: cmd :: BitVec.ofNat 8 data.length :: data

/-- The bytes of an instruction: host bytes for the host operations (30_encoding R83, R84) and the
pseudo-operations (R94), raw bytes for the wire symbols (R78, R79), logical bytes for the frame
(R70), the code for the command codes (R80). -/
def encode : Instr → List Byte
  | .wrb v => [0x00, v]
  | .rdb => [0x20]
  | .enc sub cmd data => encodeEnc sub cmd data
  | .dec => [0x60]
  | .rdreg r => [0x80 + r.setWidth 8]
  | .wrreg r v => [0xA0 + r.setWidth 8, v]
  | .srst => [0xC0]
  | .reserved w => [w]
  | .sync => [0xE0]
  | .skip b => [b]
  | .esc => [0xD0]
  | .lit b => [b]
  | .follow b => [b]
  | .txsync => [0xE0]
  | .txescD0 => [0xD0, 0xCF]
  | .txescE0 => [0xD0, 0xDF]
  | .txlit b => [b]
  | .frame l s q c d k => 0xE0 :: l :: s :: q :: c :: (d ++ [k])
  | .cmdReset => [0x62]
  | .cmdLed => [0x81]
  | .cmdFelicaProbe => [0x42]
  | .cmdAltProbe => [0x40]
  | .resetCmd => [0x40, 0x00, 0x62, 0x01, 0x00]
  | .felicaProbe => [0x40, 0x00, 0x42, 0x01, 0x00]
  | .ledSet red green blue => [0x40, 0x08, 0x81, 0x04, 0x03, red, blue, green]
  | .altProbe40 => [0x40, 0x00, 0x40, 0x02, 0x01, 0x03]
  | .exchange sub cmd data => encodeEnc sub cmd data ++ [0x60]

/-! ### A word of the opcode table -/

/-- The bytes of a word of the opcode table, first byte first. The table writes the first byte of a
row leftmost and numbers the row as one number with bit 0 its least significant bit (98_reader), so
the first byte holds the most significant bits. -/
def tableBytes : (nbytes : Nat) → Nat → List Byte
  | 0, _ => []
  | n + 1, w => BitVec.ofNat 8 (w / 256 ^ n) :: tableBytes n w

/-- The format a table word is read in (DESIGN CHOICE, log 14): a single byte that R84 assigns or that
has `op = 111` is a host operation word; of the others the sentinel 0xD0 is the symbol ESC and the
codes of R80 are command codes; two bytes are a symbol of TX_RAW where they are one; longer words are
the host bytes of a pseudo-operation or a frame where they are one; anything else is read on the host
port. -/
def tableFormat : List Byte → Format
  | [b] =>
    if illegalWord b = false then .hostop
    else if b = Config.escByte then .rxFirst
    else if b = 0x62 ∨ b = 0x42 then .cmdcode
    else .hostop
  | [b, f] => if b = Config.escByte ∧ (f = 0xCF ∨ f = 0xDF) then .txsym else .hostop
  | bytes =>
    match decodePseudo bytes, decodeFrame bytes with
    | .ok _, _ => .pseudo
    | _, .ok (_, []) => .frame
    | _, _ => .hostop

/-- The bytes the decoder is given for a table word: operand bytes the table gives no bits are zeros (a
host operation asks for at most three where its count byte is zero, 30_encoding R83); a
pseudo-operation has all its bytes. -/
def tableInput (bytes : List Byte) : List Byte :=
  if tableFormat bytes = .pseudo then bytes else bytes ++ [0, 0, 0]

/-- The instruction read from a word of the opcode table. -/
def decodeTableWord (nbits w : Nat) : Option Instr :=
  let bytes := tableBytes (nbits / 8) w
  match decodeAs (tableFormat bytes) (tableInput bytes) with
  | .ok (i, _) => some i
  | .error _ => none

end Sys2Proof
end

