-- ==== Sys2Proof/Machine/State.lean ====
section
/-! DEFINITION. The state of the block and of the ports around it (10_state), its faults and refusals,
and the state after reset (R41). -/

namespace Sys2Proof.Machine

/-- The phase register `PH` (10_state R30). -/
inductive Phase where
  | idle
  | bWr
  | bRd
  | eSync | eLen | eSub | eSeq | eCmd | eData | eChk
  | dHunt | dLen | dSub | dSeq | dCmd | dData | dChk
deriving DecidableEq, Repr

/-- The faults of the block (60_exceptions R210). They end an operation and are reported in its
response; the machine goes on. -/
inductive BlockFault where
  | timeout
  | shortRead
  | truncatedEscape
  | malformedLen
  | malformedChk
  | transportFatal
deriving DecidableEq, Repr

/-- The refusals of the block (60_exceptions R210, R219), also responses. -/
inductive BlockRefusal where
  | encodeTooLong
  | illegalOp
  | illegalReg
deriving DecidableEq, Repr

/-- The responses on `HOST_RSP` (44_serial_protocol_framer R191). -/
inductive Response where
  | ok
  | byte (b : Byte)
  | frame (length sub seqnum command : Byte) (data : List Byte) (checksum : Byte) (chkOk : Bool)
  | fault (f : BlockFault)
  | refused (r : BlockRefusal)
deriving DecidableEq, Repr

/-- The whole state: the block's registers, latches and phase (10_state R20), and what stands on its
ports. The last six fields are the model's own (INVENTORY, State). -/
structure State where
  /-- `SEQ`, the sequence counter (R23). -/
  seq : Byte
  /-- `CTRL`: bit 0 `CHK_EN`, bit 1 `SEQ_POLICY` (R24). -/
  ctrl : Byte
  /-- `STATUS`: bits 3:0 `CAUSE`, bit 4 `CHK_OK` (R25). -/
  status : Byte
  /-- `PH` (R30). -/
  ph : Phase
  /-- `ESCP`, escape pending (R33). -/
  escp : Bool
  /-- The working latches (R27). -/
  lat : Latches
  /-- The operation bytes the host has presented on `HOST_CMD` and the block has not taken, in order
  (30_encoding R83; 44_serial_protocol_framer R190). -/
  hostCmd : List Byte
  /-- The responses given on `HOST_RSP`, first first (R191). -/
  hostRsp : List Response
  /-- What the transport answers to the next `RawRead`s, in order (20_memory R52). -/
  rx : List RxAnswer
  /-- What the transport answers to the next `RawWrite`s, in order (20_memory R54). -/
  txAns : List TxAnswer
  /-- The raw bytes accepted on `TX_RAW`, first first (20_memory R54, R60). -/
  tx : List Byte
  /-- The reset input (70_reset_and_hazards R250). -/
  resetPin : Bool
  /-- The operand of a `WRB` in progress (40_byte_stuffing_codec R104; log 10). -/
  wbuf : Byte
  /-- The sentinel of a pair has been accepted and its follow byte is outstanding (log 10). -/
  txMid : Bool
  /-- The host is inside an `EXCHANGE` whose `DEC` it has not issued (log 11). -/
  exch : Bool
  /-- How many free answers to `RawRead` have been drawn (log 4). -/
  rxDrawn : Nat
  /-- How many free answers to `RawWrite` have been drawn (log 4). -/
  txDrawn : Nat
  /-- How many times the latches have lost their values (log 3). -/
  deadDrawn : Nat
deriving DecidableEq, Repr

/-- The model's named faults: a stuck state, with no next state. -/
inductive Fault where
  /-- Raised by the meanings of the wire symbols, the frame and the command codes where the phase, `ESCP`
  or the byte in hand gives that symbol no place (30_encoding R78 to R80). SAFE: no run reaches it, the
  step hands out only the symbol the state calls for (log 9). -/
  | symbolOutOfContext
deriving DecidableEq, Repr

/-- The model's refusals. -/
inductive Refusal where
  /-- Raised by exec for an instruction that has no meaning yet; no instruction is left so. SAFE. -/
  | notModelled (mnemonic : String)
  /-- Raised by the meanings of the host operations and pseudo-operations while `PH` is not `IDLE`: the
  block accepts an operation only when it is idle (44_serial_protocol_framer R192). SAFE: no run reaches
  it, the step takes an operation only at `IDLE` (log 8). -/
  | hostPortBusy
deriving DecidableEq, Repr

/-- The latches at reset: the spec gives them no value (10_state R41); DESIGN CHOICE zero, and no entry
of `DBUF` (log 2). -/
def resetLatches : Latches :=
  { l := 0, s := 0, q := 0, c := 0, k := 0, acc := 0, idx := 0, dbuf := [] }

/-- The machine right after reset (10_state R41; 70_reset_and_hazards R250), with nothing placed on any
port. -/
def State.reset : State where
  seq := Config.seqReset
  ctrl := 0x00
  status := 0x00
  ph := .idle
  escp := false
  lat := resetLatches
  hostCmd := []
  hostRsp := []
  rx := []
  txAns := []
  tx := []
  resetPin := false
  wbuf := 0
  txMid := false
  exch := false
  rxDrawn := 0
  txDrawn := 0
  deadDrawn := 0

end Sys2Proof.Machine
end

