-- ==== Sys2Proof/Machine/Flags.lean ====
section
/-! DEFINITION. The control and status bits (10_state R24, R25, R33, R34), the codes of
60_exceptions R210, and the running checksum. -/

namespace Sys2Proof.Machine

/-- The code of a fault (60_exceptions R210). -/
def BlockFault.code : BlockFault → Byte
  | .timeout => 1
  | .shortRead => 2
  | .truncatedEscape => 3
  | .malformedLen => 4
  | .malformedChk => 5
  | .transportFatal => 6

/-- The code of a refusal (60_exceptions R210). -/
def BlockRefusal.code : BlockRefusal → Byte
  | .encodeTooLong => 8
  | .illegalOp => 9
  | .illegalReg => 10

/-- The bits of `CTRL` the host can write, 1:0 (10_state R24). -/
def ctrlMask : Byte := 0x03

/-- The bits of `STATUS` that are defined, 4:0 (10_state R25). -/
def statusMask : Byte := 0x1F

/-- `CTRL.CHK_EN` (10_state R24). -/
def State.chkEn (st : State) : Bool := st.ctrl.getLsbD 0

/-- `CTRL.SEQ_POLICY` (10_state R24): false is echo, true is increment. -/
def State.seqPolicy (st : State) : Bool := st.ctrl.getLsbD 1

/-- `STATUS.CAUSE` (10_state R25). -/
def State.cause (st : State) : Byte := st.status &&& 0x0F

/-- `STATUS.CHK_OK` (10_state R25). -/
def State.chkOk (st : State) : Bool := st.status.getLsbD 4

/-- `STATUS` with `CAUSE` replaced and `CHK_OK` kept (10_state R25). -/
def withCause (status code : Byte) : Byte := (status &&& 0x10) ||| code

/-- `STATUS` with `CHK_OK` replaced and `CAUSE` kept (10_state R25). -/
def withChkOk (status : Byte) (ok : Bool) : Byte :=
  (status &&& 0x0F) ||| (if ok then 0x10 else 0x00)

/-- `ACC` after the header: `(L + S + Q + C) mod 256` (42_frame_decoder R140, 41_frame_encoder R120). -/
def headerSum (l s q c : Byte) : Byte := l + s + q + c

/-- `ACC` after the data bytes that follow, one by one (41_frame_encoder R120, R125). -/
def accumulate : Byte → List Byte → Byte
  | acc, [] => acc
  | acc, b :: bs => accumulate (acc + b) bs

end Sys2Proof.Machine
end

