-- ==== Sys2Proof/Machine/Operands.lean ====
section
/-! DEFINITION. Where an operation finds its operands and puts its results: the register numbers
(10_state R22), the frame fields in the latches (R27) and the phases that read or write them (R30 to
R32). -/

namespace Sys2Proof.Machine

/-- The register numbered r as the host reads it, reserved bits 0 (10_state R22, R24, R25;
43_sequence_and_registers R175); none for number 3 (R178). -/
def State.readReg (r : BitVec 2) (st : State) : Option Byte :=
  if r = 0 then some st.seq
  else if r = 1 then some (st.ctrl &&& ctrlMask)
  else if r = 2 then some (st.status &&& statusMask)
  else none

/-- A host write to register r: only `CTRL[1:0]` takes it (43_sequence_and_registers R176, R177). -/
def State.writeReg (r : BitVec 2) (v : Byte) (st : State) : State :=
  if r = 1 then { st with ctrl := v &&& ctrlMask } else st

/-- The phases in which a raw byte is a body byte read through the escaper (30_encoding R78). -/
def Phase.inBody : Phase → Bool
  | .bRd => true
  | .dLen => true
  | .dSub => true
  | .dSeq => true
  | .dCmd => true
  | .dData => true
  | .dChk => true
  | _ => false

/-- The phases in which the block waits in a `RawRead`. -/
def Phase.receiving (p : Phase) : Bool := p == .dHunt || p.inBody

/-- The phases in which a logical byte is written through the escaper (30_encoding R73). -/
def Phase.escaping : Phase → Bool
  | .bWr => true
  | .eLen => true
  | .eSub => true
  | .eSeq => true
  | .eCmd => true
  | .eData => true
  | .eChk => true
  | _ => false

/-- The phases in which the block waits in a `RawWrite`. -/
def Phase.transmitting (p : Phase) : Bool := p == .eSync || p.escaping

/-- `DBUF[i]`; an entry that holds no value reads as a free value (10_state R37; log 17). -/
def State.dbufAt (i : Nat) (st : State) : Byte := (st.lat.dbuf[i]?).getD (Config.noValue i)

/-- The number of data bytes of the frame in the latches, `L − 4` (30_encoding R75, 44_serial_protocol_framer
R204 (f)). -/
def State.dataLen (st : State) : Nat := st.lat.l.toNat - Config.overhead

/-- The logical byte the current transmit phase writes (41_frame_encoder R120, R124; R104 for `B_WR`). -/
def State.txLogical (st : State) : Byte :=
  match st.ph with
  | .bWr => st.wbuf
  | .eLen => st.lat.l
  | .eSub => st.lat.s
  | .eSeq => st.lat.q
  | .eCmd => st.lat.c
  | .eData => st.dbufAt st.lat.idx.toNat
  | .eChk => st.lat.k
  | _ => Config.syncByte

/-- Does the byte in hand go out as an escape pair (30_encoding R72, R73)? The delimiter never does. -/
def State.txPair (st : State) : Bool := st.ph.escaping && needsEscape st.txLogical

/-- The raw byte the block is handing to the transport (40_byte_stuffing_codec R101, 41_frame_encoder
R123): the delimiter, a literal, the sentinel of a pair or its follow byte. -/
def State.txRaw (st : State) : Byte :=
  if st.txPair then (if st.txMid then st.txLogical - 1 else Config.escByte)
  else st.txLogical

end Sys2Proof.Machine
end

