-- ==== Sys2Proof/Machine/Ops.lean ====
section
/-! DEFINITION. The shared operations: responses, the fault entry (60_exceptions R225), the reset, one
answer of the transport to a `RawRead` or a `RawWrite` (20_memory R52, R54), and a whole run over the
answers that are there. -/

namespace Sys2Proof.Machine

/-! ### Ends of an operation -/

/-- The latches hold no value from here on (10_state R26, 60_exceptions R225): a free value (log 3). -/
def State.dropLatches (st : State) : State :=
  { st with lat := Config.deadLatches st.deadDrawn, deadDrawn := st.deadDrawn + 1 }

/-- One response on `HOST_RSP` (44_serial_protocol_framer R191). -/
def State.respond (r : Response) (st : State) : State := { st with hostRsp := st.hostRsp ++ [r] }

/-- The end of a `WRB`, `RDB`, `ENC` or `DEC` without fault: `PH <- IDLE`, `STATUS.CAUSE <- 0`, the
response (40_byte_stuffing_codec R104, R105). -/
def State.finish (r : Response) (st : State) : State :=
  { st with ph := .idle, status := withCause st.status 0, hostRsp := st.hostRsp ++ [r] }

/-- Taking a fault, the same for every fault of `WRB`, `RDB`, `ENC`, `DEC` (60_exceptions R225):
`PH <- IDLE`, `ESCP <- 0`, `STATUS.CAUSE <-` the code, `Fault(code)`; the latches hold no value; `SEQ`,
`CTRL` and the streams stay as they are. Nothing is saved and there is no return (R227). -/
def State.raiseFault (f : BlockFault) (st : State) : State :=
  State.dropLatches
    { st with
      ph := .idle, escp := false, txMid := false, status := withCause st.status f.code,
      hostRsp := st.hostRsp ++ [.fault f] }

/-- The external reset (70_reset_and_hazards R250, R251): every register at its reset value, an
operation in progress abandoned without a response (an EXCHANGE with it), the streams and what the
host has presented left alone; the reset input is served. -/
def State.applyReset (st : State) : State :=
  { st with
    seq := Config.seqReset, ctrl := 0x00, status := 0x00, ph := .idle, escp := false,
    lat := resetLatches, resetPin := false, txMid := false, exch := false }

/-! ### Receiving -/

/-- The contexts of a `RawRead` (00_scope R12). -/
inductive ReadCtx where
  | hunt
  | first
  | follow
deriving DecidableEq, Repr

/-- The context of the `RawRead` the block waits in (00_scope R12). -/
def State.readCtx (st : State) : ReadCtx :=
  if st.ph = .dHunt then .hunt else if st.escp then .follow else .first

/-- The fault an answer becomes in each context (60_exceptions R213); none for a byte. -/
def faultOfAnswer : ReadCtx → RxAnswer → Option BlockFault
  | _, .byte _ => none
  | _, .timeout => some .timeout
  | .hunt, .closed => some .shortRead
  | .first, .closed => some .shortRead
  | .follow, .closed => some .truncatedEscape
  | _, .fatal => some .transportFatal

/-- The phase after the command byte or after a data byte, by the number of data bytes there are and the
number already handled: the data phase once per data byte, then the checksum (10_state R31). -/
def dataPhase (more last : Phase) (handled total : Nat) : Phase :=
  if handled < total then more else last

/-- The sequence counter after a successful decode (43_sequence_and_registers R171, R173). -/
def State.adoptSeq (q : Byte) (st : State) : State :=
  { st with seq := if st.seqPolicy then st.seq else q }

/-- The length byte (42_frame_decoder R142, R143): below 4 it is no frame. -/
def State.takeLength (v : Byte) (st : State) : State :=
  if v.toNat < Config.overhead then
    State.raiseFault .malformedLen { st with lat := { st.lat with l := v } }
  else { st with lat := { st.lat with l := v }, ph := .dSub }

/-- The command byte, the last of the header: `ACC` starts, no data byte is there yet, and the data
phase is skipped when `L = 4` (42_frame_decoder R140, 10_state R31). -/
def State.takeCommand (v : Byte) (st : State) : State :=
  { st with
    lat := { st.lat with
      c := v, acc := headerSum st.lat.l st.lat.s st.lat.q v, idx := 0, dbuf := [] }
    ph := dataPhase .dData .dChk 0 st.dataLen }

/-- One data byte into `DBUF[IDX]` (42_frame_decoder R140, R144); the entries above it hold no value
yet. -/
def State.takeData (v : Byte) (st : State) : State :=
  { st with
    lat := { st.lat with
      dbuf := st.lat.dbuf.take st.lat.idx.toNat ++ [v], acc := st.lat.acc + v,
      idx := st.lat.idx + 1 }
    ph := dataPhase .dData .dChk (st.lat.idx.toNat + 1) st.dataLen }

/-- The end of a `DEC` that returns its frame (42_frame_decoder R140, R146, R150): the sequence counter,
then the response. -/
def State.returnFrame (k : Byte) (ok : Bool) (st : State) : State :=
  ((st.adoptSeq st.lat.q).finish
    (.frame st.lat.l st.lat.s st.lat.q st.lat.c (st.lat.dbuf.take st.dataLen) k ok)).dropLatches

/-- The checksum byte is latched and compared, and the result latched in `STATUS.CHK_OK`
(42_frame_decoder R145, R148). -/
def State.compareChecksum (k : Byte) (st : State) : State :=
  { st with
    lat := { st.lat with k := k }, status := withChkOk st.status (k == st.lat.acc) }

/-- The checksum byte (42_frame_decoder R145, R148): the comparison is always made; with
`CTRL.CHK_EN = 1` a mismatch is `MalformedFrame(CHK)`. -/
def State.takeChecksum (k : Byte) (st : State) : State :=
  if st.chkEn && k != st.lat.acc then (st.compareChecksum k).raiseFault .malformedChk
  else (st.compareChecksum k).returnFrame k (k == st.lat.acc)

/-- A logical byte arrives (the value `EscRead` returns), by phase (40_byte_stuffing_codec R105,
42_frame_decoder R140). -/
def State.takeLogical (v : Byte) (st : State) : State :=
  match st.ph with
  | .bRd => st.finish (.byte v)
  | .dLen => st.takeLength v
  | .dSub => { st with lat := { st.lat with s := v }, ph := .dSeq }
  | .dSeq => { st with lat := { st.lat with q := v }, ph := .dCmd }
  | .dCmd => st.takeCommand v
  | .dData => st.takeData v
  | .dChk => st.takeChecksum v
  | _ => st

/-- A raw byte taken in the hunt (30_encoding R78, 42_frame_decoder R141). -/
def State.takeHunt (b : Byte) (st : State) : State :=
  if b = Config.syncByte then { st with ph := .dLen } else st

/-- A raw byte taken through the escaper (30_encoding R78, 40_byte_stuffing_codec R102). -/
def State.takeEscaped (b : Byte) (st : State) : State :=
  if st.escp then { st with escp := false }.takeLogical (b + 1)
  else if b = Config.escByte then { st with escp := true }
  else st.takeLogical b

/-- A raw byte taken from RX_RAW (30_encoding R78). -/
def State.takeRaw (b : Byte) (st : State) : State :=
  if st.ph = .dHunt then st.takeHunt b else st.takeEscaped b

/-- One answer to the `RawRead` the block waits in (20_memory R52, 60_exceptions R213). -/
def State.takeAnswer (a : RxAnswer) (st : State) : State :=
  match a with
  | .byte b => st.takeRaw b
  | a =>
    match faultOfAnswer st.readCtx a with
    | some f => st.raiseFault f
    | none => st

/-- The operation in progress reads on while the transport has answers for it: until it ends, or waits
in a `RawRead` that has no answer yet (20_memory R62). The answers it does not ask for stay. -/
def runRx : List RxAnswer → State → State
  | [], st => { st with rx := [] }
  | a :: as, st =>
    if st.ph.receiving then runRx as (st.takeAnswer a) else { st with rx := a :: as }

/-- The answer to the `RawRead` the block waits in: the next of the transport's answers or, where none
stands, a free one, which may be that it has not answered yet (20_memory R52, R53; log 4). -/
def State.rawRead (st : State) : Option RxAnswer × State :=
  match st.rx with
  | a :: as => (some a, { st with rx := as })
  | [] => (Config.rxAnswer st.rxDrawn, { st with rxDrawn := st.rxDrawn + 1 })

/-! ### Transmitting -/

/-- The end of an `ENC` (41_frame_encoder R120, R127). -/
def State.finishEncode (st : State) : State := (st.finish .ok).dropLatches

/-- The phase moves on when the byte of a transmit phase has been accepted whole (10_state R31,
41_frame_encoder R120, 40_byte_stuffing_codec R104). -/
def State.written (st : State) : State :=
  match st.ph with
  | .bWr => st.finish .ok
  | .eSync => { st with ph := .eLen }
  | .eLen => { st with ph := .eSub }
  | .eSub => { st with ph := .eSeq }
  | .eSeq => { st with ph := .eCmd }
  | .eCmd =>
    { st with
      lat := { st.lat with idx := 0 }, ph := dataPhase .eData .eChk 0 st.dataLen }
  | .eData =>
    { st with
      lat := { st.lat with idx := st.lat.idx + 1 }
      ph := dataPhase .eData .eChk (st.lat.idx.toNat + 1) st.dataLen }
  | .eChk => st.finishEncode
  | _ => st

/-- The raw byte in hand has been accepted (20_memory R54): after the sentinel of a pair its follow byte
is outstanding, otherwise the phase moves on (40_byte_stuffing_codec R101). -/
def State.accepted (st : State) : State :=
  if st.txPair && !st.txMid then { st with tx := st.tx ++ [st.txRaw], txMid := true }
  else State.written { st with tx := st.tx ++ [st.txRaw], txMid := false }

/-- One answer to the `RawWrite` the block waits in (20_memory R54, 60_exceptions R213, R216). -/
def State.takeWrite (a : TxAnswer) (st : State) : State :=
  match a with
  | .ok => st.accepted
  | .fatal => st.raiseFault .transportFatal

/-- The operation in progress writes on while the transport has answers for it: until it ends, or waits
in a `RawWrite` that has no answer yet (20_memory R62). -/
def runTx : List TxAnswer → State → State
  | [], st => { st with txAns := [] }
  | a :: as, st =>
    if st.ph.transmitting then runTx as (st.takeWrite a) else { st with txAns := a :: as }

/-- One `RawWrite` of the byte in hand: the next of the transport's answers or, where none stands, a free
one, which may be that it has not answered yet (20_memory R54; log 4). -/
def State.rawWrite (st : State) : State :=
  match st.txAns with
  | a :: as => State.takeWrite a { st with txAns := as }
  | [] =>
    match Config.txAnswer st.txDrawn with
    | some a => State.takeWrite a { st with txDrawn := st.txDrawn + 1 }
    | none => { st with txDrawn := st.txDrawn + 1 }

/-- Both raw writes of an escape pair, or the second where the sentinel is already accepted
(40_byte_stuffing_codec R101); the second is not made where the first has not been accepted. -/
def State.rawWritePair (st : State) : State :=
  if st.txMid then st.rawWrite
  else if st.rawWrite.txMid then st.rawWrite.rawWrite
  else st.rawWrite

/-! ### Whole operations -/

/-- `WRB v` from its start, as far as the transport has answers (40_byte_stuffing_codec R104). -/
def State.startWrb (v : Byte) (st : State) : State :=
  runTx st.txAns { st with ph := .bWr, wbuf := v, txMid := false }

/-- `RDB` from its start, as far as the transport has answers (40_byte_stuffing_codec R105). -/
def State.startRdb (st : State) : State :=
  runRx st.rx { st with ph := .bRd, escp := false }

/-- The sequence counter an admitted `ENC` samples: incremented first under policy increment
(41_frame_encoder R122, 43_sequence_and_registers R172). -/
def State.encodeSeq (st : State) : Byte := if st.seqPolicy then st.seq + 1 else st.seq

/-- The latches of an admitted `ENC` before its first write (41_frame_encoder R120, R122, R125). -/
def encodeLatches (sub q cmd : Byte) (data : List Byte) : Latches :=
  let l := lengthField data.length
  let acc := accumulate (headerSum l sub q cmd) data
  { l := l, s := sub, q := q, c := cmd, k := acc, acc := acc, idx := 0, dbuf := data }

/-- `ENC sub, cmd, data` from its start, as far as the transport has answers (41_frame_encoder R120);
refused before any effect but `STATUS.CAUSE` when the data do not fit (R121). -/
def State.startEnc (sub cmd : Byte) (data : List Byte) (st : State) : State :=
  if Config.maxData < data.length then
    State.respond (.refused .encodeTooLong)
      { st with status := withCause st.status BlockRefusal.encodeTooLong.code }
  else
    runTx st.txAns
      { st with
        seq := st.encodeSeq, lat := encodeLatches sub st.encodeSeq cmd data, ph := .eSync,
        txMid := false }

/-- `DEC` from its start, as far as the transport has answers (42_frame_decoder R140). -/
def State.startDec (st : State) : State :=
  runRx st.rx { st with status := withChkOk st.status false, ph := .dHunt, escp := false }

/-- The host's half of an `EXCHANGE` (44_serial_protocol_framer R200): once the `ENC` has responded, the
host issues the `DEC` if the response is `Ok`, and otherwise nothing (log 11). -/
def State.followUp (st : State) : State :=
  if st.exch && st.ph == .idle then
    if st.hostRsp.getLast? = some .ok then State.startDec { st with exch := false }
    else { st with exch := false }
  else st

/-- The outcome type of a meaning. -/
abbrev Result := Host.Outcome State Fault Refusal

/-- A host operation is accepted only when `PH = IDLE` (44_serial_protocol_framer R192); otherwise the
host port is not ready (log 8). -/
def whenIdle (op : State → State) (st : State) : Result :=
  if st.ph = .idle then .next (op st) else .refused .hostPortBusy

/-- A symbol of the wire has its effect where the state gives it a place (30_encoding R78, R79), and no
meaning anywhere else (log 9). -/
def inContext (here : Bool) (op : State → State) (st : State) : Result :=
  if here then .next (op st) else .fault .symbolOutOfContext

end Sys2Proof.Machine
end

