-- ==== Sys2Proof/Machine/Codec.lean ====
section
/-! DEFINITION. The byte-stuffing codec's host operations (40_byte_stuffing_codec section 3). -/

namespace Sys2Proof.Machine

/-- `WRB v` (R104). -/
def execWrb (v : Byte) (st : State) : Result := whenIdle (State.startWrb v) st

/-- `RDB` (R105). -/
def execRdb (st : State) : Result := whenIdle State.startRdb st

end Sys2Proof.Machine
end

