-- ==== Sys2Proof/Machine/FrameDecoder.lean ====
section
/-! DEFINITION. The frame decoder (42_frame_decoder). -/

namespace Sys2Proof.Machine

/-- `DEC` (R140). -/
def execDec (st : State) : Result := whenIdle State.startDec st

end Sys2Proof.Machine
end

