-- ==== Sys2Proof/Machine/FrameEncoder.lean ====
section
/-! DEFINITION. The frame encoder (41_frame_encoder). -/

namespace Sys2Proof.Machine

/-- `ENC sub, cmd, data` (R120). -/
def execEnc (sub cmd : Byte) (data : List Byte) (st : State) : Result :=
  whenIdle (State.startEnc sub cmd data) st

end Sys2Proof.Machine
end

