-- ==== Sys2Proof/Machine/FrameFormat.lean ====
section
/-! DEFINITION. The frame as a unit of the wire and the command byte in it (30_encoding R70, R80). The
block does not interpret the command (00_scope R7): each code is carried (log 12, log 13). -/

namespace Sys2Proof.Machine

/-- The frame stands next on RX_RAW and the decoder, hunting, takes it (42_frame_decoder R140). -/
def State.receiveFrame (l s q c : Byte) (d : List Byte) (k : Byte) (st : State) : State :=
  runRx ((frameWire l s q c d k).map .byte ++ st.rx) st

/-- Do the latches hold this frame, ready to be sent (41_frame_encoder R120)? -/
def State.holdsFrame (l s q c : Byte) (d : List Byte) (k : Byte) (st : State) : Bool :=
  st.lat.l == l && st.lat.s == s && st.lat.q == q && st.lat.c == c && st.lat.dbuf == d &&
    st.lat.k == k

/-- `FRAME`: in the hunt, the frame arrives and is parsed; at the delimiter of an `ENC` whose latches hold
it, it is transmitted as far as the transport has answers. -/
def execFrame (l s q c : Byte) (d : List Byte) (k : Byte) (st : State) : Result :=
  if st.ph = .dHunt then .next (st.receiveFrame l s q c d k)
  else
    inContext (st.ph == .eSync && st.holdsFrame l s q c d k) (fun x => runTx x.txAns x) st

/-- The command byte of a frame, at logical offset 4 (30_encoding R80): received in `D_CMD` with no escape
pending, or sent in `E_CMD` where the latch `C` holds it. No code of R80 is escaped. -/
def carryCommand (code : Byte) (st : State) : Result :=
  if st.ph = .dCmd ∧ st.escp = false then .next (st.takeRaw code)
  else inContext (st.ph == .eCmd && st.lat.c == code) State.rawWrite st

/-- `CMD_RESET`, 0x62. -/
def execCmdReset (st : State) : Result := carryCommand 0x62 st

/-- `CMD_LED`, 0x81. -/
def execCmdLed (st : State) : Result := carryCommand 0x81 st

/-- `CMD_FELICA_PROBE`, 0x42. -/
def execCmdFelicaProbe (st : State) : Result := carryCommand 0x42 st

/-- `CMD_ALT_PROBE`, 0x40. -/
def execCmdAltProbe (st : State) : Result := carryCommand 0x40 st

end Sys2Proof.Machine
end

