-- ==== Sys2Proof/Machine/Pseudo.lean ====
section
/-! DEFINITION. The pseudo-operations of the command catalogue (44_serial_protocol_framer R194 to
R200): each an `ENC` with fixed operands, and `EXCHANGE`, an `ENC` and then a `DEC`. -/

namespace Sys2Proof.Machine

/-- `RESET_CMD`: `ENC 0x00, 0x62, [0x00]` (R194). -/
def execResetCmd (st : State) : Result := whenIdle (State.startEnc 0x00 0x62 [0x00]) st

/-- `FELICA_PROBE`: `ENC 0x00, 0x42, [0x00]` (R196). -/
def execFelicaProbe (st : State) : Result := whenIdle (State.startEnc 0x00 0x42 [0x00]) st

/-- `LED_SET red, green, blue`: `ENC 0x08, 0x81, [0x03, red, blue, green]` (R197). -/
def execLedSet (red green blue : Byte) (st : State) : Result :=
  whenIdle (State.startEnc 0x08 0x81 [0x03, red, blue, green]) st

/-- `ALT_PROBE_40`: `ENC 0x00, 0x40, [0x01, 0x03]` (R198; the sub-selector is the spec's assumption,
log 20). -/
def execAltProbe40 (st : State) : Result := whenIdle (State.startEnc 0x00 0x40 [0x01, 0x03]) st

/-- `EXCHANGE sub, cmd, data` (R200): the `ENC`, and the `DEC` if it responds `Ok`. -/
def execExchange (sub cmd : Byte) (data : List Byte) (st : State) : Result :=
  whenIdle (fun x => (State.startEnc sub cmd data { x with exch := true }).followUp) st

end Sys2Proof.Machine
end

