-- ==== Sys2Proof/Machine/Registers.lean ====
section
/-! DEFINITION. The register operations, the session reset and the illegal operation words
(43_sequence_and_registers; 30_encoding R91). -/

namespace Sys2Proof.Machine

/-- `RDREG r` from an idle block: the register as read, or `IllegalReg` for number 3; no state written
(R175, R178). -/
def State.readRegister (r : BitVec 2) (st : State) : State :=
  match st.readReg r with
  | some v => st.respond (.byte v)
  | none => st.respond (.refused .illegalReg)

/-- `WRREG r, v` from an idle block (R176 to R178). -/
def State.writeRegister (r : BitVec 2) (v : Byte) (st : State) : State :=
  if r = 3 then st.respond (.refused .illegalReg) else (st.writeReg r v).respond .ok

/-- `SRST` from an idle block (R179): `SEQ`, `STATUS`, `ESCP` and `PH` at their reset values, the latches
without value, `CTRL` and the transport as they are. -/
def State.sessionReset (st : State) : State :=
  State.respond .ok
    (State.dropLatches
      { st with seq := Config.seqReset, status := 0x00, escp := false, ph := .idle })

/-- `RDREG r` (R175). -/
def execRdreg (r : BitVec 2) (st : State) : Result := whenIdle (State.readRegister r) st

/-- `WRREG r, v` (R176). -/
def execWrreg (r : BitVec 2) (v : Byte) (st : State) : Result := whenIdle (State.writeRegister r v) st

/-- `SRST` (R179). -/
def execSrst (st : State) : Result := whenIdle State.sessionReset st

/-- A word that names no operation: `Refused(IllegalOp)`, no other effect, whatever the word
(30_encoding R91, 60_exceptions R219). -/
def execReserved (_w : Byte) (st : State) : Result :=
  whenIdle (State.respond (.refused .illegalOp)) st

end Sys2Proof.Machine
end

