-- ==== Sys2Proof/Machine/RxSymbols.lean ====
section
/-! DEFINITION. The symbols of RX_RAW (30_encoding R78): the meaning of one raw byte taken. -/

namespace Sys2Proof.Machine

/-- Is the block in a body phase with `ESCP` as given (30_encoding R78)? -/
def State.bodyWith (escp : Bool) (st : State) : Bool := st.ph.inBody && st.escp == escp

/-- `SYNC`: the hunt ends, next phase `D_LEN`. -/
def execSync (st : State) : Result :=
  inContext (st.ph == .dHunt) (State.takeRaw Config.syncByte) st

/-- `SKIP`: the byte is discarded, the hunt goes on. -/
def execSkip (b : Byte) (st : State) : Result :=
  inContext (st.ph == .dHunt && b != Config.syncByte) (State.takeRaw b) st

/-- `ESC`: `ESCP <- 1`, no logical byte yet. -/
def execEsc (st : State) : Result :=
  inContext (st.bodyWith false) (State.takeRaw Config.escByte) st

/-- `LIT`: the logical byte b. -/
def execLit (b : Byte) (st : State) : Result :=
  inContext (st.bodyWith false && b != Config.escByte) (State.takeRaw b) st

/-- `FOLLOW`: the logical byte `(b + 1) mod 256`, `ESCP <- 0`. -/
def execFollow (b : Byte) (st : State) : Result :=
  inContext (st.bodyWith true) (State.takeRaw b) st

end Sys2Proof.Machine
end

