-- ==== Sys2Proof/Machine/TxSymbols.lean ====
section
/-! DEFINITION. The symbols of TX_RAW (30_encoding R79): the raw writes of one byte to be sent. -/

namespace Sys2Proof.Machine

/-- Is v the logical byte the block is writing through the escaper (30_encoding R79)? -/
def State.writing (v : Byte) (st : State) : Bool := st.ph.escaping && st.txLogical == v

/-- `TXSYNC`: the frame delimiter, without the escaper (41_frame_encoder R123). -/
def execTxsync (st : State) : Result := inContext (st.ph == .eSync) State.rawWrite st

/-- `TXESC_D0`: the two raw bytes `D0 CF`. -/
def execTxescD0 (st : State) : Result :=
  inContext (st.writing Config.escByte) State.rawWritePair st

/-- `TXESC_E0`: the two raw bytes `D0 DF`. -/
def execTxescE0 (st : State) : Result :=
  inContext (st.writing Config.syncByte) State.rawWritePair st

/-- `TXLIT`: the one raw byte b. -/
def execTxlit (b : Byte) (st : State) : Result :=
  inContext (st.writing b && !needsEscape b) State.rawWrite st

end Sys2Proof.Machine
end

