-- ==== Sys2Proof/Machine/Dispatch.lean ====
section
/-! DEFINITION. One arm per instruction, each one call of its meaning. -/

namespace Sys2Proof.Machine

/-- What an instruction does. -/
def exec (i : Instr) (s : State) : Host.Outcome State Fault Refusal :=
  match i with
  | .wrb v => Sys2Proof.Machine.execWrb v s
  | .rdb => Sys2Proof.Machine.execRdb s
  | .enc sub cmd data => Sys2Proof.Machine.execEnc sub cmd data s
  | .dec => Sys2Proof.Machine.execDec s
  | .rdreg r => Sys2Proof.Machine.execRdreg r s
  | .wrreg r v => Sys2Proof.Machine.execWrreg r v s
  | .srst => Sys2Proof.Machine.execSrst s
  | .reserved w => Sys2Proof.Machine.execReserved w s
  | .sync => Sys2Proof.Machine.execSync s
  | .skip b => Sys2Proof.Machine.execSkip b s
  | .esc => Sys2Proof.Machine.execEsc s
  | .lit b => Sys2Proof.Machine.execLit b s
  | .follow b => Sys2Proof.Machine.execFollow b s
  | .txsync => Sys2Proof.Machine.execTxsync s
  | .txescD0 => Sys2Proof.Machine.execTxescD0 s
  | .txescE0 => Sys2Proof.Machine.execTxescE0 s
  | .txlit b => Sys2Proof.Machine.execTxlit b s
  | .frame l s' q c d k => Sys2Proof.Machine.execFrame l s' q c d k s
  | .cmdReset => Sys2Proof.Machine.execCmdReset s
  | .cmdLed => Sys2Proof.Machine.execCmdLed s
  | .cmdFelicaProbe => Sys2Proof.Machine.execCmdFelicaProbe s
  | .cmdAltProbe => Sys2Proof.Machine.execCmdAltProbe s
  | .resetCmd => Sys2Proof.Machine.execResetCmd s
  | .felicaProbe => Sys2Proof.Machine.execFelicaProbe s
  | .ledSet red green blue => Sys2Proof.Machine.execLedSet red green blue s
  | .altProbe40 => Sys2Proof.Machine.execAltProbe40 s
  | .exchange sub cmd data => Sys2Proof.Machine.execExchange sub cmd data s

end Sys2Proof.Machine
end

