-- ==== Sys2Proof/Machine/Fetch.lean ====
section
/-! DEFINITION. What the next step works on (10_state R30, R31; 44_serial_protocol_framer R192): the
reset input, an operation from the host port when the block is idle, or the next symbol of the wire
when an operation is in progress; and where the model places a word of the opcode table. -/

namespace Sys2Proof.Machine

/-- What a step finds to do: an instruction to run from a state, or a state the machine moves to without
one. -/
inductive Fetched where
  | run (i : Instr) (st : State)
  | moved (st : State)

/-- At `IDLE`: the host's `DEC` of an `EXCHANGE`, else the first operation presented on `HOST_CMD`; where
none is presented whole, the block waits (R190, R192). -/
def State.fetchHost (st : State) : Fetched :=
  if st.exch then .moved st.followUp
  else
    match decode st.hostCmd with
    | .ok (i, rest) => .run i { st with hostCmd := rest }
    | .error _ => .moved st

/-- In a `RawRead`: a byte is the symbol 30_encoding R78 makes of it, any other answer a fault
(60_exceptions R213), and no answer yet is a wait (R245). -/
def State.fetchRx (st : State) : Fetched :=
  match st.rawRead with
  | (none, st') => .moved st'
  | (some (.byte b), st') => .run (rxSymbol (st'.ph == .dHunt) st'.escp b) st'
  | (some a, st') => .moved (st'.takeAnswer a)

/-- In a `RawWrite`: the symbol 30_encoding R79 makes of the byte to be sent. -/
def State.fetchTx (st : State) : Fetched :=
  .run (txSymbol (st.ph == .eSync) st.txLogical) st

/-- What the next step works on. -/
def State.fetch (st : State) : Fetched :=
  if st.resetPin then .moved st.applyReset
  else if st.ph = .idle then st.fetchHost
  else if st.ph.receiving then st.fetchRx
  else st.fetchTx

/-- A word of the opcode table placed where the next step reads it (log 7, log 14): host operation bytes
on `HOST_CMD`; for the symbol ESC the sentinel on RX_RAW with an `RDB` in progress; for the two pairs of
R79 a `WRB` in progress of the byte they stand for, with the transport ready to accept; for a command
code the byte on RX_RAW with a `DEC` at its command byte; for a frame its raw bytes on RX_RAW with a
`DEC` in the hunt (the next steps take them one by one). -/
def State.placeTableWord (st : State) (nbits w : Nat) : State :=
  let bytes := tableBytes (nbits / 8) w
  match tableFormat bytes with
  | .rxFirst => { st with resetPin := false, ph := .bRd, escp := false, rx := bytes.map .byte }
  | .txsym =>
    { st with
      resetPin := false, ph := .bWr, txMid := false, wbuf := bytes.getD 1 0 + 1,
      txAns := [.ok, .ok] }
  | .cmdcode => { st with resetPin := false, ph := .dCmd, escp := false, rx := bytes.map .byte }
  | .frame =>
    { st with
      resetPin := false, ph := .dHunt, escp := false,
      rx := (bytes.take 1 ++ escList (bytes.drop 1)).map .byte }
  | _ => { st with resetPin := false, ph := .idle, exch := false, hostCmd := tableInput bytes }

end Sys2Proof.Machine
end

