-- ==== Sys2Proof/Machine/Step.lean ====
section
/-! DEFINITION. One step of the machine. -/

namespace Sys2Proof.Machine

/-- One step: what `State.fetch` finds is run, or moved to. -/
def step (s : State) : Host.Outcome State Fault Refusal :=
  match s.fetch with
  | .run i s' => exec i s'
  | .moved s' => .next s'

/-- `s` with a word of the opcode table placed so that the next step runs it (log 7, log 14). -/
def State.withFetchWord (s : State) (nbits w : Nat) : State := s.placeTableWord nbits w

end Sys2Proof.Machine
end

