-- ==== Sys2Proof/Safety.lean ====
section
/-! DEFINITION. What counts as a sound state of the machine: the invariant of a run, from the rules that
bind state between primitives (10_state R24, R25, R28, R31, R33; 60_exceptions R210). -/

namespace Sys2Proof.Machine

/-- A response that keeps the frame rules: a returned frame has `length = len(data) + 4` (10_state R28)
and its `chk_ok` is the comparison of 42_frame_decoder R148. -/
def Response.Legal : Response → Prop
  | .frame l s q c d k good =>
    l.toNat = d.length + Config.overhead ∧ good = (k == chkSum l s q c d)
  | _ => True

/-- The latches hold a frame to be sent: length and checksum computed (10_state R28; 41_frame_encoder
R122, R125). -/
def State.SendingFrame (st : State) : Prop :=
  st.lat.l.toNat = st.lat.dbuf.length + Config.overhead ∧
    st.lat.k = chkSum st.lat.l st.lat.s st.lat.q st.lat.c st.lat.dbuf

/-- The latches hold the part of a frame received so far, from the command byte on: `ACC` is the running
sum and `IDX` the number of data bytes (10_state R27; 42_frame_decoder R140). -/
def State.ReceivingData (st : State) : Prop :=
  Config.overhead ≤ st.lat.l.toNat ∧
    st.lat.acc = chkSum st.lat.l st.lat.s st.lat.q st.lat.c st.lat.dbuf

/-- What the latches hold in each phase (10_state R28, R31; 42_frame_decoder R143: past `D_LEN` the
length is at least 4). -/
def State.LatchesFit (st : State) : Prop :=
  match st.ph with
  | .dSub => Config.overhead ≤ st.lat.l.toNat
  | .dSeq => Config.overhead ≤ st.lat.l.toNat
  | .dCmd => Config.overhead ≤ st.lat.l.toNat
  | .dData =>
    st.ReceivingData ∧ st.lat.idx.toNat = st.lat.dbuf.length ∧ st.lat.dbuf.length < st.dataLen
  | .dChk => st.ReceivingData ∧ st.lat.dbuf.length = st.dataLen
  | .eSync => st.SendingFrame
  | .eLen => st.SendingFrame
  | .eSub => st.SendingFrame
  | .eSeq => st.SendingFrame
  | .eCmd => st.SendingFrame
  | .eData => st.SendingFrame ∧ st.lat.idx.toNat < st.lat.dbuf.length
  | .eChk => st.SendingFrame
  | _ => True

/-- The invariant of the machine. -/
structure State.Inv (st : State) : Prop where
  /-- `CTRL` bits 7:2 hold 0 (10_state R24). -/
  ctrlReserved : st.ctrl &&& 0xFC = 0
  /-- `STATUS` bits 7:5 hold 0 (10_state R25). -/
  statusReserved : st.status &&& 0xE0 = 0
  /-- `CAUSE` holds 0, a fault code or 8: 7 and 11 to 15 are never produced, 9 and 10 are carried in
  responses only (60_exceptions R210). -/
  causeProduced : st.cause.toNat ≤ 6 ∨ st.cause = 8
  /-- `ESCP` is 1 only while a body byte is read (10_state R33). -/
  escpInBody : st.escp = true → st.ph.inBody = true
  /-- `CHK_OK` is 0 from the start of a `DEC` to its checksum comparison (10_state R25; 42_frame_decoder
  R152). -/
  chkOkClearInDec : st.ph.receiving = true → st.ph ≠ .bRd → st.chkOk = false
  /-- A follow byte is outstanding only in the middle of a pair. -/
  midInPair : st.txMid = true → st.txPair = true
  /-- The latches fit the phase. -/
  latchesFit : st.LatchesFit
  /-- Every response given keeps the frame rules. -/
  responsesLegal : ∀ r ∈ st.hostRsp, r.Legal

end Sys2Proof.Machine
end

