-- ==== Sys2Proof/Certificates/Slice0/Obligations.lean ====
section
/-! DEFINITION. The statements for the provers, each a rule of the spec or what follows from rules. -/

open Sys2Proof Sys2Proof.Machine

namespace Sys2Proof.Machine

/-! ### Words used in the statements -/

/-- n acceptances of the transport (20_memory R54). -/
def oks (n : Nat) : List TxAnswer := List.replicate n .ok

/-- The transport answers with these raw bytes, in order (20_memory R52). -/
def arriving (raw : List Byte) : List RxAnswer := raw.map .byte

/-- What receiving leaves as it was: `CTRL`, everything about transmitting, the host port's command side,
the reset input. -/
def NothingSent (s t : State) : Prop :=
  t.ctrl = s.ctrl ∧ t.tx = s.tx ∧ t.txAns = s.txAns ∧ t.txDrawn = s.txDrawn ∧
    t.hostCmd = s.hostCmd ∧ t.resetPin = s.resetPin ∧ t.wbuf = s.wbuf

/-- What transmitting leaves as it was: `CTRL`, `STATUS.CHK_OK`, everything about receiving, the host port's
command side, the reset input. -/
def NothingReceived (s t : State) : Prop :=
  t.ctrl = s.ctrl ∧ t.chkOk = s.chkOk ∧ t.rx = s.rx ∧ t.rxDrawn = s.rxDrawn ∧
    t.hostCmd = s.hostCmd ∧ t.resetPin = s.resetPin

/-- The operation has ended with one response and with this `CAUSE` (10_state R25, R191). -/
def EndedWith (s t : State) (r : Response) (cause : Byte) : Prop :=
  t.ph = .idle ∧ t.hostRsp = s.hostRsp ++ [r] ∧ t.cause = cause

/-- The symbol `i` delivers the logical byte `v`: as a literal with no escape pending, or as a follow byte
one below it (30_encoding R77, R78). -/
def Delivers (i : Instr) (v : Byte) (s : State) : Prop :=
  (i = .lit v ∧ v ≠ 0xD0 ∧ s.escp = false) ∨ (i = .follow (v - 1) ∧ s.escp = true)

/-- The symbol `i` writes the logical byte `v` as the raw bytes `raw` (30_encoding R79). -/
def Writes (i : Instr) (v : Byte) (raw : List Byte) : Prop :=
  (i = .txescD0 ∧ v = 0xD0 ∧ raw = [0xD0, 0xCF]) ∨
    (i = .txescE0 ∧ v = 0xE0 ∧ raw = [0xD0, 0xDF]) ∨
    (i = .txlit v ∧ v ≠ 0xD0 ∧ v ≠ 0xE0 ∧ raw = [v])

/-- The phase after a transmit phase (10_state R31): the order of the fields, the data phase once per data
byte and skipped when `L = 4`, `IDLE` after the last. -/
def phaseAfterWriting (s : State) : Phase :=
  match s.ph with
  | .eSync => .eLen
  | .eLen => .eSub
  | .eSub => .eSeq
  | .eSeq => .eCmd
  | .eCmd => if 4 < s.lat.l.toNat then .eData else .eChk
  | .eData => if s.lat.idx.toNat + 1 < s.lat.l.toNat - 4 then .eData else .eChk
  | _ => .idle

/-- The sequence value a frame sent now carries (41_frame_encoder R122). -/
def sentSeq (s : State) : Byte := if s.seqPolicy then s.seq + 1 else s.seq

/-- What `DEC` leaves when it has taken a whole frame, in terms of the state before it (42_frame_decoder
R146, R148, R150; 43_sequence_and_registers R171, R173). -/
def FrameTaken (s t : State) (l u q c : Byte) (d : List Byte) (k : Byte) : Prop :=
  t.escp = false ∧ t.chkOk = (k == chkSum l u q c d) ∧
    if s.chkEn = true ∧ k ≠ chkSum l u q c d then
      EndedWith s t (.fault .malformedChk) 5 ∧ t.seq = s.seq
    else
      EndedWith s t (.frame l u q c d k (k == chkSum l u q c d)) 0 ∧
        t.seq = if s.seqPolicy then s.seq else q

end Sys2Proof.Machine

/-! ### Reset and steps -/

/-- Reset leaves every register at the value of 10_state R41 (70_reset_and_hazards R250), `SEQ` at the open
parameter, whatever its value (log 1). That no response has been given, no byte written and no host byte is
taken to be there is the model's choice (log 7). -/
def Obligations.ResetRegisterValues : Prop :=
  State.reset.seq = Config.seqReset ∧ State.reset.ctrl = 0x00 ∧ State.reset.status = 0x00 ∧
    State.reset.ph = .idle ∧ State.reset.escp = false ∧ State.reset.hostRsp = [] ∧
    State.reset.tx = []

/-- The state after reset is sound. -/
def Obligations.ResetStateIsSound : Prop := State.reset.Inv

/-- Every step keeps a sound state sound: reserved bits stay 0 (10_state R24, R25), only produced codes
stand in `CAUSE` (60_exceptions R210), `ESCP` is 1 only in a body (R33), `CHK_OK` is 0 while a `DEC` is in
progress (R25; 42_frame_decoder R152), the latches fit the phase (R31), and every frame returned has
`length = len(data) + 4` and its true `chk_ok` (R28; 42_frame_decoder R148). -/
def Obligations.StepKeepsSoundState : Prop :=
  ∀ s t : State, s.Inv → step s = .next t → t.Inv

/-- The machine never stops: a fault of the block is a next state (60_exceptions R225, R227), and the step
hands to exec only what the state calls for. -/
def Obligations.StepNeverStops : Prop := ∀ s : State, ∃ t : State, step s = .next t

/-- An idle block runs the operation presented whole on `HOST_CMD`, and takes no step on its own
(44_serial_protocol_framer R190, R192); inside an `EXCHANGE` whose `ENC` has ended, the host issues the `DEC`
if the last response is `Ok` and otherwise nothing (R200). That the step leaves the state as it is while no
operation is there whole is the model's choice (log 6, log 7), and so is the host's half of an `EXCHANGE` as
a step (log 11). -/
def Obligations.StepRunsHostOperation : Prop :=
  ∀ s : State, s.resetPin = false → s.ph = .idle →
    (s.exch = false →
      (∀ i rest, decode s.hostCmd = .ok (i, rest) →
        step s = exec i { s with hostCmd := rest }) ∧
      ∀ e, decode s.hostCmd = .error e → step s = .next s) ∧
    (s.exch = true →
      (s.hostRsp.getLast? = some .ok → step s = exec .dec { s with exch := false }) ∧
      (s.hostRsp.getLast? ≠ some .ok → step s = .next { s with exch := false }))

/-- In a receive phase the step runs the symbol 30_encoding R78 makes of the next raw byte; in a transmit
phase the one R79 makes of the byte in hand. Where no answer of the transport is queued, the step treats the
free answer it draws as if it had stood in the queue, and where that is that the transport has not answered
yet, everything but the count of draws stays as it was (20_memory R52, R54; 60_exceptions R245). One symbol a
step is the model's choice (log 5), and so are the draws (log 4); the free answers are whatever they are. -/
def Obligations.StepRunsWireSymbol : Prop :=
  ∀ s : State, s.resetPin = false →
    (∀ b as, s.ph.receiving = true → s.rx = .byte b :: as →
      step s = exec (rxSymbol (s.ph == .dHunt) s.escp b) { s with rx := as }) ∧
      (s.ph.transmitting = true → step s = exec (txSymbol (s.ph == .eSync) s.txLogical) s) ∧
      (s.ph.receiving = true → s.rx = [] →
        step s =
          match Config.rxAnswer s.rxDrawn with
          | some a => step { s with rx := [a], rxDrawn := s.rxDrawn + 1 }
          | none => .next { s with rxDrawn := s.rxDrawn + 1 }) ∧
      (s.ph.transmitting = true → s.txAns = [] →
        step s =
          match Config.txAnswer s.txDrawn with
          | some a => step { s with txAns := [a], txDrawn := s.txDrawn + 1 }
          | none => .next { s with txDrawn := s.txDrawn + 1 })

/-- The reset input puts every register at its reset value at any time and abandons an operation in progress
without a response; the streams stay (70_reset_and_hazards R250, R251). That it acts between two steps, is
served once, leaves the host's bytes, and abandons an `EXCHANGE` with its host's half and an escape pair with
its follow byte is the model's choice (log 16). -/
def Obligations.ResetInputAtAnyTime : Prop :=
  ∀ s : State, s.resetPin = true →
    ∃ t, step s = .next t ∧ t.seq = Config.seqReset ∧ t.ctrl = 0x00 ∧ t.status = 0x00 ∧
      t.ph = .idle ∧ t.escp = false ∧ t.resetPin = false ∧ t.hostRsp = s.hostRsp ∧ t.tx = s.tx ∧
      t.rx = s.rx ∧ t.txAns = s.txAns ∧ t.hostCmd = s.hostCmd ∧ t.exch = false ∧ t.txMid = false

/-! ### Encodings -/

/-- Decoding undoes encoding for every well-formed instruction, every operand at every value, in the format
of its row (30_encoding R70, R78 to R80, R82 to R84, R94). -/
def Obligations.DecodeUndoesEncode : Prop :=
  ∀ i : Instr, WellFormed i → decodeAs (formatOf i) (encode i) = .ok (i, [])

/-- A host operation is read from the head of any stream of host bytes and the rest is left (30_encoding R82
to R84). For the form `reserved`, that the bytes behind an illegal word are left as the next operation's is
the model's choice (log 24): the spec gives no rule for them. -/
def Obligations.HostOperationsDecodeInStream : Prop :=
  ∀ (i : Instr) (rest : List Byte), formatOf i = .hostop → WellFormed i →
    decode (encode i ++ rest) = .ok (i, rest)

/-- Host bytes have one reading: whatever is decoded is well-formed and encodes to the bytes it was read
from (30_encoding R82 to R84). For the form `reserved`, that an illegal word takes exactly one byte of the
stream is the model's choice (log 24): the spec gives no rule for the bytes behind it. -/
def Obligations.HostBytesHaveOneReading : Prop :=
  ∀ (bs : List Byte) (i : Instr) (rest : List Byte), decode bs = .ok (i, rest) →
    formatOf i = .hostop ∧ WellFormed i ∧ encode i ++ rest = bs

/-- Words written out from the tables of 30_encoding R84, R78, R79 and from the operation bytes of
95_test_vectors V43, V50, V4G. -/
def Obligations.WordsOfTheSpecDecode : Prop :=
  decode [0x00, 0xD0] = .ok (.wrb 0xD0, []) ∧ decode [0x60, 0x20] = .ok (.dec, [0x20]) ∧
    decode [0xA1, 0xFF] = .ok (.wrreg 1 0xFF, []) ∧
    decode [0x40, 0x00, 0x62, 0x01, 0x00] = .ok (.enc 0x00 0x62 [0x00], []) ∧
    decode [0x61] = .ok (.reserved 0x61, []) ∧
    decodeTx [0xD0, 0xDF, 0x41] = .ok (.txescE0, [0x41]) ∧
    rxSymbol true false 0xE0 = .sync ∧ rxSymbol false false 0xE0 = .lit 0xE0

/-- The words of 30_encoding R91 are refused with `IllegalOp` and have no other effect (60_exceptions R219).
That the machine takes the one word alone, and leaves the bytes behind it as the next operation's, is the
model's choice (log 24): the spec gives no rule for them. -/
def Obligations.IllegalWordsAreRefused : Prop :=
  (∀ (s : State) (w : Byte) (rest : List Byte), s.resetPin = false → s.ph = .idle →
    s.exch = false → s.hostCmd = w :: rest →
    (opField w = 7 ∨ zeroField w ≠ 0 ∨ (regField w ≠ 0 ∧ opField w ≠ 4 ∧ opField w ≠ 5)) →
    step s =
      .next { s with hostCmd := rest, hostRsp := s.hostRsp ++ [.refused .illegalOp] }) ∧
  ∀ (s : State) (w : Byte), s.ph = .idle →
    exec (.reserved w) s = .next { s with hostRsp := s.hostRsp ++ [.refused .illegalOp] }

/-! ### The codec -/

/-- `WRB v` writes the one or two raw bytes of v and responds `Ok`; nothing else of the block changes
(40_byte_stuffing_codec R101, R104). -/
def Obligations.WrbWritesEscapedByte : Prop :=
  ∀ (v : Byte) (s : State) (rest : List TxAnswer), s.ph = .idle →
    s.txAns = oks (escBytes v).length ++ rest →
    ∃ t, exec (.wrb v) s = .next t ∧
      t.tx = s.tx ++ (if v = 0xD0 ∨ v = 0xE0 then [0xD0, v - 1] else [v]) ∧ t.txAns = rest ∧
      EndedWith s t .ok 0 ∧ NothingReceived s t ∧ t.seq = s.seq ∧ t.lat = s.lat ∧
      t.escp = s.escp ∧ t.exch = s.exch ∧ t.txDrawn = s.txDrawn

/-- However the transport answers, `WRB` puts no raw sync on the wire: what it has written is the first part
of the raw bytes of v; it reads nothing and changes no register but `STATUS.CAUSE`
(40_byte_stuffing_codec R101, R104). -/
def Obligations.WrbNeverWritesRawSync : Prop :=
  ∀ (v : Byte) (s t : State), exec (.wrb v) s = .next t →
    ∃ sent, t.tx = s.tx ++ sent ∧ sent <+: escBytes v ∧ (0xE0 : Byte) ∉ sent ∧
      NothingReceived s t ∧ t.seq = s.seq ∧ t.exch = s.exch

/-- `RDB` reads one logical byte in any raw form, takes its one or two raw bytes and no more, and responds
with it (40_byte_stuffing_codec R102, R105; 30_encoding R87 to R89). -/
def Obligations.RdbReadsOneLogicalByte : Prop :=
  ∀ (s : State) (raw : List Byte) (v : Byte) (rest : List RxAnswer), s.ph = .idle →
    ((raw = [v] ∧ v ≠ 0xD0) ∨ raw = [0xD0, v - 1]) → s.rx = arriving raw ++ rest →
    ∃ t, exec .rdb s = .next t ∧ t.rx = rest ∧ EndedWith s t (.byte v) 0 ∧ t.escp = false ∧
      t.chkOk = s.chkOk ∧ NothingSent s t ∧ t.seq = s.seq ∧ t.lat = s.lat ∧ t.exch = s.exch ∧
      t.rxDrawn = s.rxDrawn

/-- What `WRB v` writes, `RDB` reads back as v and takes whole (40_byte_stuffing_codec R106). -/
def Obligations.WrittenByteReadsBack : Prop :=
  ∀ (v : Byte) (s u : State) (ready : List TxAnswer) (rest : List RxAnswer), s.ph = .idle →
    s.txAns = oks (escBytes v).length ++ ready → u.ph = .idle →
    u.rx = arriving (escBytes v) ++ rest →
    ∃ t, exec (.wrb v) s = .next t ∧ t.tx = s.tx ++ escBytes v ∧
      ∃ w, exec .rdb u = .next w ∧ w.hostRsp = u.hostRsp ++ [.byte v] ∧ w.rx = rest

/-- What the escaper can put on the wire (40_byte_stuffing_codec R107): no raw sync; the sentinel only as
the first byte of `D0 CF` or `D0 DF`; two bytes for exactly two values. -/
def Obligations.EscapedByteShape : Prop :=
  ∀ v : Byte, (0xE0 : Byte) ∉ escBytes v ∧
    ((0xD0 : Byte) ∈ escBytes v → escBytes v = [0xD0, 0xCF] ∨ escBytes v = [0xD0, 0xDF]) ∧
    ((escBytes v).length = 2 ↔ v = 0xD0 ∨ v = 0xE0) ∧
    ((escBytes v).length = 1 ↔ ¬(v = 0xD0 ∨ v = 0xE0))

/-! ### The frame encoder -/

/-- In the raw bytes of any frame the sync stands exactly once, first, and the sentinel only as the first
byte of a canonical pair (30_encoding R95). -/
def Obligations.FrameHoldsOneRawSync : Prop :=
  ∀ (u q c : Byte) (d : List Byte),
    (frameBytes u q c d).head? = some 0xE0 ∧ (frameBytes u q c d).count 0xE0 = 1 ∧
      ∀ n : Nat, (frameBytes u q c d)[n]? = some (0xD0 : Byte) →
        (frameBytes u q c d)[n + 1]? = some (0xCF : Byte) ∨
          (frameBytes u q c d)[n + 1]? = some (0xDF : Byte)

/-- The raw length of a frame: one byte per body byte, one more for each that is 0xD0 or 0xE0, and the sync;
at least 6 and at most 511, both reached (30_encoding R74). -/
def Obligations.FrameRawLength : Prop :=
  (∀ (u q c : Byte) (d : List Byte), d.length ≤ 251 →
    (frameBytes u q c d).length =
        1 + (d.length + 5) +
          ((lengthField d.length :: u :: q :: c ::
            (d ++ [chkSum (lengthField d.length) u q c d])).filter needsEscape).length ∧
      6 ≤ (frameBytes u q c d).length ∧ (frameBytes u q c d).length ≤ 511) ∧
  (frameBytes 0x00 0x00 0x00 []).length = 6 ∧
  (frameBytes 0xE0 0xE0 0xE0 (List.replicate 251 0xE0)).length = 511

/-- `ENC` writes exactly `FrameBytes(sub, Q, cmd, data)` with `Q` the sequence value by the policy, responds
`Ok`, and leaves the rest (41_frame_encoder R120, R122, R124, R125, R127; 43_sequence_and_registers
R172). -/
def Obligations.EncWritesItsFrame : Prop :=
  ∀ (sub cmd : Byte) (data : List Byte) (s : State) (rest : List TxAnswer), s.ph = .idle →
    data.length ≤ 251 → s.txAns = oks (frameBytes sub (sentSeq s) cmd data).length ++ rest →
    ∃ t, exec (.enc sub cmd data) s = .next t ∧
      t.tx = s.tx ++ frameBytes sub (sentSeq s) cmd data ∧ t.txAns = rest ∧
      t.seq = sentSeq s ∧ EndedWith s t .ok 0 ∧ NothingReceived s t ∧ t.escp = s.escp ∧
      t.exch = s.exch ∧ t.txDrawn = s.txDrawn

/-- `ENC` with more than 251 data bytes is refused before any effect but `STATUS.CAUSE <- 8`, under either
policy (41_frame_encoder R121). -/
def Obligations.EncRefusesLongData : Prop :=
  ∀ (sub cmd : Byte) (data : List Byte) (s : State), s.ph = .idle → 251 < data.length →
    ∃ t, exec (.enc sub cmd data) s = .next t ∧ EndedWith s t (.refused .encodeTooLong) 8 ∧
      NothingReceived s t ∧ t.seq = s.seq ∧ t.tx = s.tx ∧ t.txAns = s.txAns ∧ t.lat = s.lat ∧
      t.escp = s.escp ∧ t.exch = s.exch

/-- A write fault in the middle of a frame: the raw bytes accepted stay, nothing more is written,
`CAUSE <- 6`, `Fault(TransportFatal)`; under policy increment `SEQ` keeps its incremented value
(41_frame_encoder R128). -/
def Obligations.EncWriteFaultLeavesPartialFrame : Prop :=
  ∀ (sub cmd : Byte) (data : List Byte) (s : State) (n : Nat) (rest : List TxAnswer),
    s.ph = .idle → data.length ≤ 251 → n < (frameBytes sub (sentSeq s) cmd data).length →
    s.txAns = oks n ++ .fatal :: rest →
    ∃ t, exec (.enc sub cmd data) s = .next t ∧
      t.tx = s.tx ++ (frameBytes sub (sentSeq s) cmd data).take n ∧ t.txAns = rest ∧
      t.seq = sentSeq s ∧ EndedWith s t (.fault .transportFatal) 6 ∧ t.escp = false ∧
      NothingReceived s t

/-- The frame of `ENC` and of the catalogue's pseudo-operations, whatever the transport answers: `CTRL`,
`STATUS.CHK_OK`, RX_RAW and the host bytes stay, bytes are only appended to TX_RAW, and `SEQ` is the
sampled value or, on a refusal, as it was (41_frame_encoder R120). -/
def Obligations.SendersLeaveTheRest : Prop :=
  ∀ (i : Instr) (s t : State),
    ((∃ sub cmd data, i = .enc sub cmd data) ∨ i = .resetCmd ∨ i = .felicaProbe ∨
      (∃ red green blue, i = .ledSet red green blue) ∨ i = .altProbe40) →
    exec i s = .next t →
    NothingReceived s t ∧ s.tx <+: t.tx ∧ t.exch = s.exch ∧ (t.seq = s.seq ∨ t.seq = sentSeq s)

/-! ### The frame decoder -/

/-- The frame round trip (42_frame_decoder R155): if RX_RAW begins with `FrameBytes(S, Q, C, D)`, `DEC`
returns that frame with `chk_ok = 1`, takes exactly its bytes, and under policy echo adopts `Q`. -/
def Obligations.DecReturnsEncodedFrame : Prop :=
  ∀ (u q c : Byte) (d : List Byte) (s : State) (rest : List RxAnswer), s.ph = .idle →
    d.length ≤ 251 → s.rx = arriving (frameBytes u q c d) ++ rest →
    ∃ t, exec .dec s = .next t ∧ t.rx = rest ∧
      EndedWith s t
        (.frame (BitVec.ofNat 8 (d.length + 4)) u q c d
          (chkSum (BitVec.ofNat 8 (d.length + 4)) u q c d) true) 0 ∧
      t.seq = (if s.seqPolicy then s.seq else q) ∧ NothingSent s t

/-- `DEC` parses a frame after any noise and in any raw forms, canonical or not: it discards the noise
without consulting the escaper, takes the sync and the `L + 1` logical bytes and not one byte more, compares
the checksum, and ends as 42_frame_decoder R146, R148 and R150 say (R141 to R149). -/
def Obligations.DecParsesAnyRawForm : Prop :=
  ∀ (l u q c k : Byte) (d noise raw : List Byte) (s : State) (rest : List RxAnswer),
    s.ph = .idle → (0xE0 : Byte) ∉ noise → l.toNat = d.length + 4 →
    unescape raw = some (l :: u :: q :: c :: (d ++ [k])) →
    s.rx = arriving (noise ++ 0xE0 :: raw) ++ rest →
    ∃ t, exec .dec s = .next t ∧ t.rx = rest ∧ FrameTaken s t l u q c d k ∧ NothingSent s t ∧
      t.exch = s.exch ∧ t.rxDrawn = s.rxDrawn

/-- A length byte below 4 ends `DEC` at once with `MalformedFrame(LEN)`, nothing further read
(42_frame_decoder R143, R152). -/
def Obligations.DecRefusesShortLength : Prop :=
  ∀ (l : Byte) (noise raw : List Byte) (s : State) (rest : List RxAnswer), s.ph = .idle →
    (0xE0 : Byte) ∉ noise → l.toNat < 4 → unescape raw = some [l] →
    s.rx = arriving (noise ++ 0xE0 :: raw) ++ rest →
    ∃ t, exec .dec s = .next t ∧ t.rx = rest ∧ EndedWith s t (.fault .malformedLen) 4 ∧
      t.chkOk = false ∧ t.escp = false ∧ t.seq = s.seq ∧ NothingSent s t

/-- `SEQ` and `CHK_OK` after any `DEC`. `SEQ` is moved only by a returned frame, under policy echo, to that
frame's `Q`; a `DEC` that faults, or waits, leaves it (42_frame_decoder R150; 43_sequence_and_registers R171,
R173). `CHK_OK` is the `chk_ok` of the frame returned, and 0 after every fault, whichever it is, and while the
`DEC` waits (42_frame_decoder R148, R152; 10_state R25). -/
def Obligations.DecAdoptsOnlyFromReturnedFrame : Prop :=
  ∀ s t : State, exec .dec s = .next t →
    (t.hostRsp = s.hostRsp ∧ t.seq = s.seq ∧ t.chkOk = false) ∨
    (∃ f, t.hostRsp = s.hostRsp ++ [.fault f] ∧ t.seq = s.seq ∧ t.chkOk = false) ∨
    ∃ l u q c d k good, t.hostRsp = s.hostRsp ++ [.frame l u q c d k good] ∧ t.chkOk = good ∧
      t.seq = if s.seqPolicy then s.seq else q

/-- The frame of `RDB` and `DEC`, whatever the transport answers: nothing is written to TX_RAW, `CTRL` stays,
raw bytes are only taken from the front of RX_RAW; `RDB` leaves `SEQ` and `CHK_OK` too
(40_byte_stuffing_codec R105, 42_frame_decoder R140). -/
def Obligations.ReceiversLeaveTheRest : Prop :=
  ∀ s t : State,
    (exec .dec s = .next t → NothingSent s t ∧ t.rx <:+ s.rx ∧ t.exch = s.exch) ∧
    (exec .rdb s = .next t →
      NothingSent s t ∧ t.rx <:+ s.rx ∧ t.exch = s.exch ∧ t.seq = s.seq ∧ t.chkOk = s.chkOk)

/-- However many raw bytes other than 0xE0 arrive, `DEC` takes them all and is still hunting, without a
response: no proof can say that `DEC` always terminates (42_frame_decoder R141; 70_reset_and_hazards
R266). -/
def Obligations.HuntGoesOnWithoutSync : Prop :=
  ∀ (noise : List Byte) (s : State), s.ph = .idle → (0xE0 : Byte) ∉ noise →
    s.rx = arriving noise →
    ∃ t, exec .dec s = .next t ∧ t.ph = .dHunt ∧ t.rx = [] ∧ t.hostRsp = s.hostRsp ∧
      t.seq = s.seq ∧ NothingSent s t

/-- A frame body is bounded: after the sync, 512 answers of the transport, whatever they are, end a `DEC`
(70_reset_and_hazards R266). -/
def Obligations.FrameBodyIsBounded : Prop :=
  ∀ (s : State) (noise : List Byte) (as : List RxAnswer), s.ph = .idle → (0xE0 : Byte) ∉ noise →
    512 ≤ as.length → s.rx = arriving (noise ++ [0xE0]) ++ as →
    ∃ t r, exec .dec s = .next t ∧ t.ph = .idle ∧ t.hostRsp = s.hostRsp ++ [r]

/-! ### Faults -/

/-- The table of 60_exceptions R213 for `RawRead`, with the fault entry of R225: every answer that is no byte
ends the operation in progress, in every context. `STATUS.CHK_OK` is kept (10_state R25), so in a `DEC`, where
it is 0 until the comparison, it stays 0 (42_frame_decoder R152). -/
def Obligations.ReadAnswersBecomeFaults : Prop :=
  ∀ (s : State) (a : RxAnswer) (as : List RxAnswer), s.resetPin = false →
    s.ph.receiving = true → s.rx = a :: as →
    (a = .timeout → ∃ t, step s = .next t ∧ EndedWith s t (.fault .timeout) 1 ∧ t.escp = false ∧
      t.rx = as ∧ t.seq = s.seq ∧ t.chkOk = s.chkOk ∧ NothingSent s t) ∧
    (a = .closed → s.escp = false ∨ s.ph = .dHunt → ∃ t, step s = .next t ∧
      EndedWith s t (.fault .shortRead) 2 ∧ t.escp = false ∧ t.rx = as ∧ t.seq = s.seq ∧
      t.chkOk = s.chkOk ∧ NothingSent s t) ∧
    (a = .closed → s.escp = true → s.ph ≠ .dHunt → ∃ t, step s = .next t ∧
      EndedWith s t (.fault .truncatedEscape) 3 ∧ t.escp = false ∧ t.rx = as ∧ t.seq = s.seq ∧
      t.chkOk = s.chkOk ∧ NothingSent s t) ∧
    (a = .fatal → ∃ t, step s = .next t ∧ EndedWith s t (.fault .transportFatal) 6 ∧
      t.escp = false ∧ t.rx = as ∧ t.seq = s.seq ∧ t.chkOk = s.chkOk ∧ NothingSent s t)

/-- `Fatal` to a `RawWrite` ends the operation in progress with `TransportFatal`; the byte is not appended
(20_memory R54; 60_exceptions R213, R216, R225). -/
def Obligations.WriteFatalBecomesFault : Prop :=
  ∀ (s : State) (as : List TxAnswer), s.resetPin = false → s.ph.transmitting = true →
    s.txAns = .fatal :: as →
    ∃ t, step s = .next t ∧ EndedWith s t (.fault .transportFatal) 6 ∧ t.escp = false ∧
      t.tx = s.tx ∧ t.txAns = as ∧ t.seq = s.seq ∧ NothingReceived s t

/-! ### The register operations -/

/-- `RDREG` responds with the register, reserved bits 0, and refuses number 3; no state changes
(43_sequence_and_registers R175, R178). -/
def Obligations.RdregReadsRegister : Prop :=
  ∀ s : State, s.ph = .idle →
    exec (.rdreg 0) s = .next { s with hostRsp := s.hostRsp ++ [.byte s.seq] } ∧
    exec (.rdreg 1) s = .next { s with hostRsp := s.hostRsp ++ [.byte (s.ctrl &&& 0x03)] } ∧
    exec (.rdreg 2) s = .next { s with hostRsp := s.hostRsp ++ [.byte (s.status &&& 0x1F)] } ∧
    exec (.rdreg 3) s = .next { s with hostRsp := s.hostRsp ++ [.refused .illegalReg] }

/-- `WRREG 1` writes `CTRL[1:0]`, the other bits 0; `WRREG 0` and `WRREG 2` are accepted without effect;
number 3 is refused (43_sequence_and_registers R176, R177, R178). -/
def Obligations.WrregWritesControlOnly : Prop :=
  ∀ (s : State) (v : Byte), s.ph = .idle →
    exec (.wrreg 0 v) s = .next { s with hostRsp := s.hostRsp ++ [.ok] } ∧
    exec (.wrreg 1 v) s =
      .next { s with ctrl := v &&& 0x03, hostRsp := s.hostRsp ++ [.ok] } ∧
    exec (.wrreg 2 v) s = .next { s with hostRsp := s.hostRsp ++ [.ok] } ∧
    exec (.wrreg 3 v) s = .next { s with hostRsp := s.hostRsp ++ [.refused .illegalReg] }

/-- `SRST`: `SEQ`, `STATUS`, `ESCP` and `PH` at their reset values, `CTRL` kept, the transport not touched,
`Ok` (43_sequence_and_registers R179). -/
def Obligations.SrstStartsNewSession : Prop :=
  ∀ s : State, s.ph = .idle →
    ∃ t, exec .srst s = .next t ∧ t.seq = Config.seqReset ∧ t.status = 0x00 ∧ t.escp = false ∧
      t.ph = .idle ∧ t.hostRsp = s.hostRsp ++ [.ok] ∧ t.ctrl = s.ctrl ∧ t.tx = s.tx ∧
      t.txAns = s.txAns ∧ t.rx = s.rx ∧ t.hostCmd = s.hostCmd ∧ t.exch = s.exch ∧
      t.resetPin = s.resetPin

/-! ### Where an instruction does not run -/

/-- A host operation or pseudo-operation is accepted only when `PH = IDLE` (44_serial_protocol_framer
R192); the name of the refusal otherwise is the model's choice (log 8). -/
def Obligations.BusyHostPortTakesNothing : Prop :=
  ∀ (i : Instr) (s : State), (formatOf i = .hostop ∨ formatOf i = .pseudo) →
    ((s.ph ≠ .idle → exec i s = .refused .hostPortBusy) ∧
      (s.ph = .idle → ∃ t, exec i s = .next t))

/-- A wire symbol runs exactly where 30_encoding R78 or R79 gives it its place: for every state that waits
for a raw byte, the symbols of that state's rows; for every state that writes, the one symbol of the byte in
hand; anywhere else it is the fault symbolOutOfContext, the model's choice (log 9). -/
def Obligations.SymbolsRunInTheirPlace : Prop :=
  ∀ (i : Instr) (s : State),
    (formatOf i = .rxHunt ∨ formatOf i = .rxFirst ∨ formatOf i = .rxFollow →
      ((s.ph.receiving = true ∧ ∃ b, i = rxSymbol (s.ph == .dHunt) s.escp b) →
        ∃ t, exec i s = .next t) ∧
      (¬(s.ph.receiving = true ∧ ∃ b, i = rxSymbol (s.ph == .dHunt) s.escp b) →
        exec i s = .fault .symbolOutOfContext)) ∧
    (formatOf i = .txsym →
      ((s.ph.transmitting = true ∧ i = txSymbol (s.ph == .eSync) s.txLogical) →
        ∃ t, exec i s = .next t) ∧
      (¬(s.ph.transmitting = true ∧ i = txSymbol (s.ph == .eSync) s.txLogical) →
        exec i s = .fault .symbolOutOfContext))

/-! ### The symbols of RX_RAW -/

/-- The symbols that deliver no logical byte: in the hunt a raw 0xE0 ends it and any other byte, 0xD0
included, is discarded; in a body the sentinel with no escape pending sets `ESCP` and nothing else
(30_encoding R78; 42_frame_decoder R141). -/
def Obligations.SymbolsWithoutLogicalByte : Prop :=
  ∀ s : State,
    (s.ph = .dHunt →
      exec .sync s = .next { s with ph := .dLen } ∧
        ∀ b : Byte, b ≠ 0xE0 → exec (.skip b) s = .next s) ∧
    (s.ph.inBody = true → s.escp = false → exec .esc s = .next { s with escp := true })

/-- A logical byte delivered to an `RDB` ends it with that byte (30_encoding R78, 40_byte_stuffing_codec
R105). -/
def Obligations.DeliveredByteEndsRdb : Prop :=
  ∀ (i : Instr) (v : Byte) (s : State), s.ph = .bRd → Delivers i v s →
    ∃ t, exec i s = .next t ∧ EndedWith s t (.byte v) 0 ∧ t.escp = false ∧ t.seq = s.seq ∧
      t.chkOk = s.chkOk ∧ t.rx = s.rx ∧ t.lat = s.lat ∧ NothingSent s t

/-- A logical byte delivered to the header of a `DEC` is latched and the phase moves on (10_state R31;
42_frame_decoder R140, R142); after the command byte `ACC` is the header's sum. -/
def Obligations.DeliveredHeaderByte : Prop :=
  ∀ (i : Instr) (v : Byte) (s : State), Delivers i v s →
    (s.ph = .dLen → 4 ≤ v.toNat →
      exec i s = .next { s with escp := false, lat := { s.lat with l := v }, ph := .dSub }) ∧
    (s.ph = .dSub →
      exec i s = .next { s with escp := false, lat := { s.lat with s := v }, ph := .dSeq }) ∧
    (s.ph = .dSeq →
      exec i s = .next { s with escp := false, lat := { s.lat with q := v }, ph := .dCmd }) ∧
    (s.ph = .dCmd → ∃ t, exec i s = .next t ∧ t.lat.l = s.lat.l ∧ t.lat.s = s.lat.s ∧
      t.lat.q = s.lat.q ∧ t.lat.c = v ∧ t.lat.acc = s.lat.l + s.lat.s + s.lat.q + v ∧
      t.ph = (if 4 < s.lat.l.toNat then .dData else .dChk) ∧ t.escp = false ∧
      t.hostRsp = s.hostRsp ∧ t.status = s.status ∧ t.seq = s.seq ∧ t.rx = s.rx ∧
      NothingSent s t)

/-- A length byte below 4 ends the `DEC` with `MalformedFrame(LEN)` (42_frame_decoder R143). -/
def Obligations.DeliveredShortLength : Prop :=
  ∀ (i : Instr) (v : Byte) (s : State), Delivers i v s → s.ph = .dLen → v.toNat < 4 →
    ∃ t, exec i s = .next t ∧ EndedWith s t (.fault .malformedLen) 4 ∧ t.escp = false ∧
      t.seq = s.seq ∧ t.rx = s.rx ∧ t.chkOk = s.chkOk ∧ NothingSent s t

/-- A data byte goes to `DBUF[IDX]`, is added to `ACC`, and is followed by another or by the checksum
(42_frame_decoder R140, R144; 10_state R31). -/
def Obligations.DeliveredDataByte : Prop :=
  ∀ (i : Instr) (v : Byte) (s : State), Delivers i v s → s.ph = .dData →
    s.lat.idx.toNat = s.lat.dbuf.length →
    exec i s =
      .next
        { s with
          escp := false
          lat := { s.lat with
            dbuf := s.lat.dbuf ++ [v], acc := s.lat.acc + v, idx := s.lat.idx + 1 }
          ph := if s.lat.dbuf.length + 1 < s.lat.l.toNat - 4 then .dData else .dChk }

/-- The checksum byte: `chk_ok` is its comparison with `ACC`, latched in `CHK_OK`; a mismatch is a fault only
with `CTRL.CHK_EN = 1`, otherwise the frame is returned and the sequence counter follows the policy
(42_frame_decoder R145, R146, R148, R150). -/
def Obligations.DeliveredChecksum : Prop :=
  ∀ (i : Instr) (v : Byte) (s : State), Delivers i v s → s.ph = .dChk →
    s.lat.dbuf.length = s.lat.l.toNat - 4 →
    ∃ t, exec i s = .next t ∧ t.escp = false ∧ t.chkOk = (v == s.lat.acc) ∧ t.rx = s.rx ∧
      NothingSent s t ∧
      (s.chkEn = true → v ≠ s.lat.acc →
        EndedWith s t (.fault .malformedChk) 5 ∧ t.seq = s.seq) ∧
      (s.chkEn = false ∨ v = s.lat.acc →
        EndedWith s t
          (.frame s.lat.l s.lat.s s.lat.q s.lat.c s.lat.dbuf v (v == s.lat.acc)) 0 ∧
        t.seq = if s.seqPolicy then s.seq else s.lat.q)

/-! ### The symbols of TX_RAW -/

/-- The delimiter goes out as one raw 0xE0, without the escaper (30_encoding R79, 41_frame_encoder
R123). -/
def Obligations.DelimiterIsWrittenRaw : Prop :=
  ∀ (s : State) (as : List TxAnswer), s.ph = .eSync → s.txAns = .ok :: as →
    exec .txsync s =
      .next { s with tx := s.tx ++ [0xE0], txAns := as, txMid := false, ph := .eLen }

/-- A logical byte goes out as the raw bytes of 30_encoding R79; then the phase moves on by 10_state R31, and
after the last phase of the operation it ends with `Ok`. -/
def Obligations.LogicalByteIsWrittenEscaped : Prop :=
  ∀ (i : Instr) (v : Byte) (raw : List Byte) (s : State) (as : List TxAnswer), Writes i v raw →
    s.ph.escaping = true → s.txLogical = v → s.txMid = false →
    s.txAns = oks raw.length ++ as →
    ∃ t, exec i s = .next t ∧ t.tx = s.tx ++ raw ∧ t.txAns = as ∧ t.txMid = false ∧
      t.ph = phaseAfterWriting s ∧
      (t.ph = .idle → EndedWith s t .ok 0) ∧
      (t.ph ≠ .idle → t.hostRsp = s.hostRsp ∧ t.status = s.status) ∧ t.seq = s.seq ∧
      NothingReceived s t

/-- The write of a pair is two accesses: with the sentinel accepted and the second access failing, the
sentinel stays on the wire without its follow byte (40_byte_stuffing_codec R101, 20_memory R57). -/
def Obligations.FaultInsidePairLeavesSentinel : Prop :=
  ∀ (i : Instr) (v : Byte) (raw : List Byte) (s : State) (as : List TxAnswer), Writes i v raw →
    raw.length = 2 → s.ph.escaping = true → s.txLogical = v → s.txMid = false →
    s.txAns = .ok :: .fatal :: as →
    ∃ t, exec i s = .next t ∧ t.tx = s.tx ++ [0xD0] ∧ t.txAns = as ∧
      EndedWith s t (.fault .transportFatal) 6 ∧ t.seq = s.seq ∧ NothingReceived s t

/-- The frame of the wire symbols, the command codes and the frame, whatever the transport answers. A symbol
of RX_RAW writes nothing to TX_RAW and takes no further raw byte; a symbol of TX_RAW reads nothing, only
appends to TX_RAW, and leaves `SEQ` and `STATUS.CHK_OK`; no such instruction touches `CTRL`, the host's bytes
or the reset input (30_encoding R78, R79, R80; 10_state R24). -/
def Obligations.SymbolsLeaveTheRest : Prop :=
  ∀ (i : Instr) (s t : State), exec i s = .next t →
    (formatOf i = .rxHunt ∨ formatOf i = .rxFirst ∨ formatOf i = .rxFollow →
      NothingSent s t ∧ t.rx = s.rx ∧ t.exch = s.exch ∧ t.rxDrawn = s.rxDrawn) ∧
    (formatOf i = .txsym →
      NothingReceived s t ∧ s.tx <+: t.tx ∧ t.seq = s.seq ∧ t.wbuf = s.wbuf ∧
        t.exch = s.exch) ∧
    (formatOf i = .cmdcode ∨ formatOf i = .frame →
      t.ctrl = s.ctrl ∧ s.tx <+: t.tx ∧ t.hostCmd = s.hostCmd ∧ t.resetPin = s.resetPin ∧
        t.wbuf = s.wbuf ∧ t.exch = s.exch)

/-! ### The frame and the command byte -/

/-- A frame that stands next on RX_RAW while the decoder hunts is taken whole, its checksum right or wrong
(30_encoding R70, R73; 42_frame_decoder R140); that a frame as an instruction means this is the model's choice
(log 12). -/
def Obligations.FrameArrivesWhole : Prop :=
  ∀ (l u q c k : Byte) (d : List Byte) (s : State), s.ph = .dHunt → s.escp = false →
    l.toNat = d.length + 4 →
    ∃ t, exec (.frame l u q c d k) s = .next t ∧ t.rx = s.rx ∧ FrameTaken s t l u q c d k ∧
      NothingSent s t

/-- The frame an `ENC` holds in its latches is written whole: the sync raw, every other logical byte through
the escaper (30_encoding R70, R73; 41_frame_encoder R123, R124; log 12). -/
def Obligations.FrameIsSentWhole : Prop :=
  ∀ (l u q c k : Byte) (d : List Byte) (s : State) (rest : List TxAnswer), s.ph = .eSync →
    s.txMid = false → l.toNat = d.length + 4 →
    s.lat.l = l → s.lat.s = u → s.lat.q = q → s.lat.c = c → s.lat.dbuf = d → s.lat.k = k →
    s.txAns = oks (frameWire l u q c d k).length ++ rest →
    ∃ t, exec (.frame l u q c d k) s = .next t ∧ t.tx = s.tx ++ frameWire l u q c d k ∧
      t.txAns = rest ∧ EndedWith s t .ok 0 ∧ t.seq = s.seq ∧ NothingReceived s t

/-- A command code is carried and not decoded (30_encoding R80, 00_scope R7): received into `C`, or sent from
it as one raw byte; that a command code as an instruction means this is the model's choice (log 13). -/
def Obligations.CommandByteIsCarried : Prop :=
  ∀ (i : Instr) (code : Byte) (s : State),
    ((i = .cmdReset ∧ code = 0x62) ∨ (i = .cmdLed ∧ code = 0x81) ∨
      (i = .cmdFelicaProbe ∧ code = 0x42) ∨ (i = .cmdAltProbe ∧ code = 0x40)) →
    (s.ph = .dCmd → s.escp = false → ∃ t, exec i s = .next t ∧ t.lat.c = code ∧
      t.lat.acc = s.lat.l + s.lat.s + s.lat.q + code ∧
      t.ph = (if 4 < s.lat.l.toNat then .dData else .dChk) ∧ t.hostRsp = s.hostRsp ∧
      t.rx = s.rx ∧ NothingSent s t) ∧
    (∀ as, s.ph = .eCmd → s.lat.c = code → s.txMid = false → s.txAns = .ok :: as →
      ∃ t, exec i s = .next t ∧ t.tx = s.tx ++ [code] ∧ t.txAns = as ∧
        t.ph = (if 4 < s.lat.l.toNat then .eData else .eChk) ∧ t.hostRsp = s.hostRsp ∧
        NothingReceived s t)

/-! ### The pseudo-operations -/

/-- The catalogue's pseudo-operations send their frames and respond `Ok` (44_serial_protocol_framer R194,
R196, R197, R198; for `ALT_PROBE_40` the sub-selector is the spec's own choice, log 20). -/
def Obligations.CatalogueSendsItsFrames : Prop :=
  ∀ (i : Instr) (sub cmd : Byte) (data : List Byte) (s : State) (rest : List TxAnswer),
    ((i = .resetCmd ∧ sub = 0x00 ∧ cmd = 0x62 ∧ data = [0x00]) ∨
      (i = .felicaProbe ∧ sub = 0x00 ∧ cmd = 0x42 ∧ data = [0x00]) ∨
      (∃ red green blue, i = .ledSet red green blue ∧ sub = 0x08 ∧ cmd = 0x81 ∧
        data = [0x03, red, blue, green]) ∨
      (i = .altProbe40 ∧ sub = 0x00 ∧ cmd = 0x40 ∧ data = [0x01, 0x03])) →
    s.ph = .idle → s.txAns = oks (frameBytes sub (sentSeq s) cmd data).length ++ rest →
    ∃ t, exec i s = .next t ∧ t.tx = s.tx ++ frameBytes sub (sentSeq s) cmd data ∧
      t.txAns = rest ∧ t.seq = sentSeq s ∧ EndedWith s t .ok 0 ∧ NothingReceived s t

/-- The host bytes of a catalogue pseudo-operation, presented to an idle block, run as that pseudo-operation
(30_encoding R94; 44_serial_protocol_framer R194 to R198). -/
def Obligations.CatalogueBytesRunAsNamed : Prop :=
  ∀ (i : Instr) (s : State) (rest : List Byte),
    (i = .resetCmd ∨ i = .felicaProbe ∨ (∃ red green blue, i = .ledSet red green blue) ∨
      i = .altProbe40) →
    s.resetPin = false → s.ph = .idle → s.exch = false → s.hostCmd = encode i ++ rest →
    step s = exec i { s with hostCmd := rest }

/-- `EXCHANGE`: the request goes out whole, then the answer is parsed; both responses are given, in order
(44_serial_protocol_framer R200); that the host's half is part of the instruction is the model's choice
(log 11). -/
def Obligations.ExchangeSendsThenReceives : Prop :=
  ∀ (sub cmd l u q c k : Byte) (data d noise raw : List Byte) (s : State)
    (ready : List TxAnswer) (rest : List RxAnswer), s.ph = .idle → data.length ≤ 251 →
    s.txAns = oks (frameBytes sub (sentSeq s) cmd data).length ++ ready →
    (0xE0 : Byte) ∉ noise → l.toNat = d.length + 4 →
    unescape raw = some (l :: u :: q :: c :: (d ++ [k])) →
    s.rx = arriving (noise ++ 0xE0 :: raw) ++ rest →
    s.chkEn = false ∨ k = chkSum l u q c d →
    ∃ t, exec (.exchange sub cmd data) s = .next t ∧
      t.tx = s.tx ++ frameBytes sub (sentSeq s) cmd data ∧ t.txAns = ready ∧ t.rx = rest ∧
      t.ph = .idle ∧ t.cause = 0 ∧ t.chkOk = (k == chkSum l u q c d) ∧
      t.hostRsp = s.hostRsp ++ [.ok, .frame l u q c d k (k == chkSum l u q c d)] ∧
      t.seq = (if s.seqPolicy then s.seq + 1 else q) ∧ t.ctrl = s.ctrl ∧
      t.hostCmd = s.hostCmd ∧ t.exch = false

/-- `EXCHANGE` whose `ENC` faults or is refused issues no `DEC`: nothing is read (44_serial_protocol_framer
R200; 95_test_vectors V59). -/
def Obligations.ExchangeStopsWithItsRequest : Prop :=
  ∀ (sub cmd : Byte) (data : List Byte) (s : State), s.ph = .idle →
    (∀ n rest, data.length ≤ 251 → n < (frameBytes sub (sentSeq s) cmd data).length →
      s.txAns = oks n ++ .fatal :: rest →
      ∃ t, exec (.exchange sub cmd data) s = .next t ∧
        EndedWith s t (.fault .transportFatal) 6 ∧ t.rx = s.rx ∧ t.exch = false ∧
        t.tx = s.tx ++ (frameBytes sub (sentSeq s) cmd data).take n) ∧
    (251 < data.length →
      ∃ t, exec (.exchange sub cmd data) s = .next t ∧
        EndedWith s t (.refused .encodeTooLong) 8 ∧ t.rx = s.rx ∧ t.tx = s.tx ∧ t.exch = false)

/-- The frame of `EXCHANGE`, whatever the transport answers: `CTRL` and the host's bytes stay, TX_RAW only
grows at its end, and raw bytes and answers are only taken from the front (44_serial_protocol_framer R200;
10_state R24, R39). -/
def Obligations.ExchangeLeavesTheRest : Prop :=
  ∀ (sub cmd : Byte) (data : List Byte) (s t : State),
    exec (.exchange sub cmd data) s = .next t →
    t.ctrl = s.ctrl ∧ t.hostCmd = s.hostCmd ∧ t.resetPin = s.resetPin ∧ s.tx <+: t.tx ∧
      t.rx <:+ s.rx ∧ t.txAns <:+ s.txAns ∧ t.rxDrawn = s.rxDrawn ∧ t.txDrawn = s.txDrawn

/-! ### The machine as a whole -/

/-- `CTRL` is written by `WRREG 1` and by reset, by nothing else (10_state R24; 43_sequence_and_registers
R176, R179). -/
def Obligations.ControlHasTwoWriters : Prop :=
  ∀ s t : State, step s = .next t →
    t.ctrl = s.ctrl ∨ (s.resetPin = true ∧ t.ctrl = 0x00) ∨
      ∃ v rest, s.ph = .idle ∧ decode s.hostCmd = .ok (.wrreg 1 v, rest) ∧
        t.ctrl = v &&& 0x03

/-- `SEQ` is written by exactly three things: a `DEC` that returns a frame under policy echo, an admitted
`ENC` under policy increment, and reset, the session reset among it (10_state R23). -/
def Obligations.SequenceHasThreeWriters : Prop :=
  ∀ s t : State, step s = .next t →
    t.seq = s.seq ∨
    (s.seqPolicy = false ∧ ∃ l u c d k good,
      t.hostRsp = s.hostRsp ++ [.frame l u t.seq c d k good]) ∨
    (s.seqPolicy = true ∧ t.seq = s.seq + 1 ∧ s.ph = .idle ∧
      ∃ sub cmd data rest, decode s.hostCmd = .ok (.enc sub cmd data, rest) ∧
        data.length ≤ 251) ∨
    (t.seq = Config.seqReset ∧
      (s.resetPin = true ∨ (s.ph = .idle ∧ ∃ rest, decode s.hostCmd = .ok (.srst, rest))))

/-- Every operation ends with exactly one response, given when it has ended: a host operation that has not
ended has given none (44_serial_protocol_framer R191, R192). -/
def Obligations.OneResponsePerOperation : Prop :=
  ∀ (i : Instr) (s t : State), formatOf i = .hostop → exec i s = .next t →
    (t.ph ≠ .idle ∧ t.hostRsp = s.hostRsp) ∨
      (t.ph = .idle ∧ ∃ r, t.hostRsp = s.hostRsp ++ [r])

/-- No step takes a byte back: TX_RAW only grows at its end and RX_RAW is only taken from the front
(10_state R39; 20_memory R57, R60; 60_exceptions R226); the responses given stay, and a step gives at most
one. -/
def Obligations.StreamsAreNeverTakenBack : Prop :=
  ∀ s t : State, step s = .next t →
    s.tx <+: t.tx ∧ t.rx <:+ s.rx ∧ t.txAns <:+ s.txAns ∧
      (t.hostRsp = s.hostRsp ∨ ∃ r, t.hostRsp = s.hostRsp ++ [r])

/-- A whole operation is what the machine does one wire symbol at a time: from the state in which the
operation has just started, some number of steps gives exactly the outcome of exec. For the writing
operations this is said where the answers present do not end inside an escape pair (a step writes a pair
whole or draws its second answer from the transport). How much of an operation exec runs is the model's
choice (log 5). -/
def Obligations.WholeOperationIsStepwise : Prop :=
  (∀ s : State, s.ph = .idle → s.resetPin = false →
    (∃ n, Host.Core.run core n
        { s with status := withChkOk s.status false, ph := .dHunt, escp := false } = exec .dec s) ∧
    ∃ n, Host.Core.run core n { s with ph := .bRd, escp := false } = exec .rdb s) ∧
  ∀ s : State, s.resetPin = false → s.ph.transmitting = true →
    (runTx s.txAns s).txMid = false →
    ∃ n, Host.Core.run core n s = .next (runTx s.txAns s)
end

