-- ==== Sys2Proof/Laws/State.lean ====
section
/-! SUPPORT. What each update of the state does to each field, by definition. -/

namespace Sys2Proof.Machine

variable (st : State)

/-! ### `State.dropLatches` -/

@[simp] theorem State.dropLatches_seq : st.dropLatches.seq = st.seq := rfl
@[simp] theorem State.dropLatches_ctrl : st.dropLatches.ctrl = st.ctrl := rfl
@[simp] theorem State.dropLatches_status : st.dropLatches.status = st.status := rfl
@[simp] theorem State.dropLatches_ph : st.dropLatches.ph = st.ph := rfl
@[simp] theorem State.dropLatches_escp : st.dropLatches.escp = st.escp := rfl
@[simp] theorem State.dropLatches_lat : st.dropLatches.lat = Config.deadLatches st.deadDrawn := rfl
@[simp] theorem State.dropLatches_hostCmd : st.dropLatches.hostCmd = st.hostCmd := rfl
@[simp] theorem State.dropLatches_hostRsp : st.dropLatches.hostRsp = st.hostRsp := rfl
@[simp] theorem State.dropLatches_rx : st.dropLatches.rx = st.rx := rfl
@[simp] theorem State.dropLatches_txAns : st.dropLatches.txAns = st.txAns := rfl
@[simp] theorem State.dropLatches_tx : st.dropLatches.tx = st.tx := rfl
@[simp] theorem State.dropLatches_resetPin : st.dropLatches.resetPin = st.resetPin := rfl
@[simp] theorem State.dropLatches_wbuf : st.dropLatches.wbuf = st.wbuf := rfl
@[simp] theorem State.dropLatches_txMid : st.dropLatches.txMid = st.txMid := rfl
@[simp] theorem State.dropLatches_exch : st.dropLatches.exch = st.exch := rfl
@[simp] theorem State.dropLatches_rxDrawn : st.dropLatches.rxDrawn = st.rxDrawn := rfl
@[simp] theorem State.dropLatches_txDrawn : st.dropLatches.txDrawn = st.txDrawn := rfl
@[simp] theorem State.dropLatches_deadDrawn : st.dropLatches.deadDrawn = st.deadDrawn + 1 := rfl

/-! ### `State.respond` -/

@[simp] theorem State.respond_seq (r : Response) : (st.respond r).seq = st.seq := rfl
@[simp] theorem State.respond_ctrl (r : Response) : (st.respond r).ctrl = st.ctrl := rfl
@[simp] theorem State.respond_status (r : Response) : (st.respond r).status = st.status := rfl
@[simp] theorem State.respond_ph (r : Response) : (st.respond r).ph = st.ph := rfl
@[simp] theorem State.respond_escp (r : Response) : (st.respond r).escp = st.escp := rfl
@[simp] theorem State.respond_lat (r : Response) : (st.respond r).lat = st.lat := rfl
@[simp] theorem State.respond_hostCmd (r : Response) : (st.respond r).hostCmd = st.hostCmd := rfl
@[simp] theorem State.respond_hostRsp (r : Response) : (st.respond r).hostRsp = st.hostRsp ++ [r] := rfl
@[simp] theorem State.respond_rx (r : Response) : (st.respond r).rx = st.rx := rfl
@[simp] theorem State.respond_txAns (r : Response) : (st.respond r).txAns = st.txAns := rfl
@[simp] theorem State.respond_tx (r : Response) : (st.respond r).tx = st.tx := rfl
@[simp] theorem State.respond_resetPin (r : Response) : (st.respond r).resetPin = st.resetPin := rfl
@[simp] theorem State.respond_wbuf (r : Response) : (st.respond r).wbuf = st.wbuf := rfl
@[simp] theorem State.respond_txMid (r : Response) : (st.respond r).txMid = st.txMid := rfl
@[simp] theorem State.respond_exch (r : Response) : (st.respond r).exch = st.exch := rfl
@[simp] theorem State.respond_rxDrawn (r : Response) : (st.respond r).rxDrawn = st.rxDrawn := rfl
@[simp] theorem State.respond_txDrawn (r : Response) : (st.respond r).txDrawn = st.txDrawn := rfl
@[simp] theorem State.respond_deadDrawn (r : Response) : (st.respond r).deadDrawn = st.deadDrawn := rfl

/-! ### `State.finish` -/

@[simp] theorem State.finish_seq (r : Response) : (st.finish r).seq = st.seq := rfl
@[simp] theorem State.finish_ctrl (r : Response) : (st.finish r).ctrl = st.ctrl := rfl
@[simp] theorem State.finish_status (r : Response) : (st.finish r).status = withCause st.status 0 := rfl
@[simp] theorem State.finish_ph (r : Response) : (st.finish r).ph = .idle := rfl
@[simp] theorem State.finish_escp (r : Response) : (st.finish r).escp = st.escp := rfl
@[simp] theorem State.finish_lat (r : Response) : (st.finish r).lat = st.lat := rfl
@[simp] theorem State.finish_hostCmd (r : Response) : (st.finish r).hostCmd = st.hostCmd := rfl
@[simp] theorem State.finish_hostRsp (r : Response) : (st.finish r).hostRsp = st.hostRsp ++ [r] := rfl
@[simp] theorem State.finish_rx (r : Response) : (st.finish r).rx = st.rx := rfl
@[simp] theorem State.finish_txAns (r : Response) : (st.finish r).txAns = st.txAns := rfl
@[simp] theorem State.finish_tx (r : Response) : (st.finish r).tx = st.tx := rfl
@[simp] theorem State.finish_resetPin (r : Response) : (st.finish r).resetPin = st.resetPin := rfl
@[simp] theorem State.finish_wbuf (r : Response) : (st.finish r).wbuf = st.wbuf := rfl
@[simp] theorem State.finish_txMid (r : Response) : (st.finish r).txMid = st.txMid := rfl
@[simp] theorem State.finish_exch (r : Response) : (st.finish r).exch = st.exch := rfl
@[simp] theorem State.finish_rxDrawn (r : Response) : (st.finish r).rxDrawn = st.rxDrawn := rfl
@[simp] theorem State.finish_txDrawn (r : Response) : (st.finish r).txDrawn = st.txDrawn := rfl
@[simp] theorem State.finish_deadDrawn (r : Response) : (st.finish r).deadDrawn = st.deadDrawn := rfl

/-! ### `State.raiseFault` -/

@[simp] theorem State.raiseFault_seq (f : BlockFault) : (st.raiseFault f).seq = st.seq := rfl
@[simp] theorem State.raiseFault_ctrl (f : BlockFault) : (st.raiseFault f).ctrl = st.ctrl := rfl
@[simp] theorem State.raiseFault_status (f : BlockFault) : (st.raiseFault f).status = withCause st.status f.code := rfl
@[simp] theorem State.raiseFault_ph (f : BlockFault) : (st.raiseFault f).ph = .idle := rfl
@[simp] theorem State.raiseFault_escp (f : BlockFault) : (st.raiseFault f).escp = false := rfl
@[simp] theorem State.raiseFault_lat (f : BlockFault) : (st.raiseFault f).lat = Config.deadLatches st.deadDrawn := rfl
@[simp] theorem State.raiseFault_hostCmd (f : BlockFault) : (st.raiseFault f).hostCmd = st.hostCmd := rfl
@[simp] theorem State.raiseFault_hostRsp (f : BlockFault) : (st.raiseFault f).hostRsp = st.hostRsp ++ [.fault f] := rfl
@[simp] theorem State.raiseFault_rx (f : BlockFault) : (st.raiseFault f).rx = st.rx := rfl
@[simp] theorem State.raiseFault_txAns (f : BlockFault) : (st.raiseFault f).txAns = st.txAns := rfl
@[simp] theorem State.raiseFault_tx (f : BlockFault) : (st.raiseFault f).tx = st.tx := rfl
@[simp] theorem State.raiseFault_resetPin (f : BlockFault) : (st.raiseFault f).resetPin = st.resetPin := rfl
@[simp] theorem State.raiseFault_wbuf (f : BlockFault) : (st.raiseFault f).wbuf = st.wbuf := rfl
@[simp] theorem State.raiseFault_txMid (f : BlockFault) : (st.raiseFault f).txMid = false := rfl
@[simp] theorem State.raiseFault_exch (f : BlockFault) : (st.raiseFault f).exch = st.exch := rfl
@[simp] theorem State.raiseFault_rxDrawn (f : BlockFault) : (st.raiseFault f).rxDrawn = st.rxDrawn := rfl
@[simp] theorem State.raiseFault_txDrawn (f : BlockFault) : (st.raiseFault f).txDrawn = st.txDrawn := rfl
@[simp] theorem State.raiseFault_deadDrawn (f : BlockFault) : (st.raiseFault f).deadDrawn = st.deadDrawn + 1 := rfl

/-! ### `State.applyReset` -/

@[simp] theorem State.applyReset_seq : st.applyReset.seq = Config.seqReset := rfl
@[simp] theorem State.applyReset_ctrl : st.applyReset.ctrl = 0x00 := rfl
@[simp] theorem State.applyReset_status : st.applyReset.status = 0x00 := rfl
@[simp] theorem State.applyReset_ph : st.applyReset.ph = .idle := rfl
@[simp] theorem State.applyReset_escp : st.applyReset.escp = false := rfl
@[simp] theorem State.applyReset_lat : st.applyReset.lat = resetLatches := rfl
@[simp] theorem State.applyReset_hostCmd : st.applyReset.hostCmd = st.hostCmd := rfl
@[simp] theorem State.applyReset_hostRsp : st.applyReset.hostRsp = st.hostRsp := rfl
@[simp] theorem State.applyReset_rx : st.applyReset.rx = st.rx := rfl
@[simp] theorem State.applyReset_txAns : st.applyReset.txAns = st.txAns := rfl
@[simp] theorem State.applyReset_tx : st.applyReset.tx = st.tx := rfl
@[simp] theorem State.applyReset_resetPin : st.applyReset.resetPin = false := rfl
@[simp] theorem State.applyReset_wbuf : st.applyReset.wbuf = st.wbuf := rfl
@[simp] theorem State.applyReset_txMid : st.applyReset.txMid = false := rfl
@[simp] theorem State.applyReset_exch : st.applyReset.exch = false := rfl
@[simp] theorem State.applyReset_rxDrawn : st.applyReset.rxDrawn = st.rxDrawn := rfl
@[simp] theorem State.applyReset_txDrawn : st.applyReset.txDrawn = st.txDrawn := rfl
@[simp] theorem State.applyReset_deadDrawn : st.applyReset.deadDrawn = st.deadDrawn := rfl

/-! ### `State.finishEncode` -/

@[simp] theorem State.finishEncode_seq : st.finishEncode.seq = st.seq := rfl
@[simp] theorem State.finishEncode_ctrl : st.finishEncode.ctrl = st.ctrl := rfl
@[simp] theorem State.finishEncode_status : st.finishEncode.status = withCause st.status 0 := rfl
@[simp] theorem State.finishEncode_ph : st.finishEncode.ph = .idle := rfl
@[simp] theorem State.finishEncode_escp : st.finishEncode.escp = st.escp := rfl
@[simp] theorem State.finishEncode_lat : st.finishEncode.lat = Config.deadLatches st.deadDrawn := rfl
@[simp] theorem State.finishEncode_hostCmd : st.finishEncode.hostCmd = st.hostCmd := rfl
@[simp] theorem State.finishEncode_hostRsp : st.finishEncode.hostRsp = st.hostRsp ++ [.ok] := rfl
@[simp] theorem State.finishEncode_rx : st.finishEncode.rx = st.rx := rfl
@[simp] theorem State.finishEncode_txAns : st.finishEncode.txAns = st.txAns := rfl
@[simp] theorem State.finishEncode_tx : st.finishEncode.tx = st.tx := rfl
@[simp] theorem State.finishEncode_resetPin : st.finishEncode.resetPin = st.resetPin := rfl
@[simp] theorem State.finishEncode_wbuf : st.finishEncode.wbuf = st.wbuf := rfl
@[simp] theorem State.finishEncode_txMid : st.finishEncode.txMid = st.txMid := rfl
@[simp] theorem State.finishEncode_exch : st.finishEncode.exch = st.exch := rfl
@[simp] theorem State.finishEncode_rxDrawn : st.finishEncode.rxDrawn = st.rxDrawn := rfl
@[simp] theorem State.finishEncode_txDrawn : st.finishEncode.txDrawn = st.txDrawn := rfl
@[simp] theorem State.finishEncode_deadDrawn : st.finishEncode.deadDrawn = st.deadDrawn + 1 := rfl

/-! ### `State.sessionReset` -/

@[simp] theorem State.sessionReset_seq : st.sessionReset.seq = Config.seqReset := rfl
@[simp] theorem State.sessionReset_ctrl : st.sessionReset.ctrl = st.ctrl := rfl
@[simp] theorem State.sessionReset_status : st.sessionReset.status = 0x00 := rfl
@[simp] theorem State.sessionReset_ph : st.sessionReset.ph = .idle := rfl
@[simp] theorem State.sessionReset_escp : st.sessionReset.escp = false := rfl
@[simp] theorem State.sessionReset_lat : st.sessionReset.lat = Config.deadLatches st.deadDrawn := rfl
@[simp] theorem State.sessionReset_hostCmd : st.sessionReset.hostCmd = st.hostCmd := rfl
@[simp] theorem State.sessionReset_hostRsp : st.sessionReset.hostRsp = st.hostRsp ++ [.ok] := rfl
@[simp] theorem State.sessionReset_rx : st.sessionReset.rx = st.rx := rfl
@[simp] theorem State.sessionReset_txAns : st.sessionReset.txAns = st.txAns := rfl
@[simp] theorem State.sessionReset_tx : st.sessionReset.tx = st.tx := rfl
@[simp] theorem State.sessionReset_resetPin : st.sessionReset.resetPin = st.resetPin := rfl
@[simp] theorem State.sessionReset_wbuf : st.sessionReset.wbuf = st.wbuf := rfl
@[simp] theorem State.sessionReset_txMid : st.sessionReset.txMid = st.txMid := rfl
@[simp] theorem State.sessionReset_exch : st.sessionReset.exch = st.exch := rfl
@[simp] theorem State.sessionReset_rxDrawn : st.sessionReset.rxDrawn = st.rxDrawn := rfl
@[simp] theorem State.sessionReset_txDrawn : st.sessionReset.txDrawn = st.txDrawn := rfl
@[simp] theorem State.sessionReset_deadDrawn : st.sessionReset.deadDrawn = st.deadDrawn + 1 := rfl

end Sys2Proof.Machine
end

