-- ==== Sys2Proof/Laws/Rx.lean ====
section
/-! SUPPORT. What receiving does: one answer of the transport, and a run over the answers there are. -/

namespace Sys2Proof.Machine

/-! ### What receiving leaves unchanged -/

/-- The fields no answer to a `RawRead` changes. -/
structure RxKeeps (s t : State) : Prop where
  ctrl : t.ctrl = s.ctrl
  hostCmd : t.hostCmd = s.hostCmd
  txAns : t.txAns = s.txAns
  tx : t.tx = s.tx
  resetPin : t.resetPin = s.resetPin
  wbuf : t.wbuf = s.wbuf
  exch : t.exch = s.exch
  rxDrawn : t.rxDrawn = s.rxDrawn
  txDrawn : t.txDrawn = s.txDrawn

theorem RxKeeps.rfl {s : State} : RxKeeps s s := by constructor <;> first | trivial

theorem RxKeeps.trans {s t u : State} (h : RxKeeps s t) (g : RxKeeps t u) : RxKeeps s u where
  ctrl := g.ctrl.trans h.ctrl
  hostCmd := g.hostCmd.trans h.hostCmd
  txAns := g.txAns.trans h.txAns
  tx := g.tx.trans h.tx
  resetPin := g.resetPin.trans h.resetPin
  wbuf := g.wbuf.trans h.wbuf
  exch := g.exch.trans h.exch
  rxDrawn := g.rxDrawn.trans h.rxDrawn
  txDrawn := g.txDrawn.trans h.txDrawn

/-! ### What one answer does -/

/-- Everything one answer to a `RawRead` can do to the operation in progress: it goes on, or it ends
with exactly one response; the sequence counter moves only with a returned frame, by the policy, and
`CHK_OK` only with a checksum comparison; a byte is the response of an `RDB` and of nothing else. -/
inductive RxOutcome (s t : State) : Prop where
  | goesOn (ph : t.ph.receiving = true) (rsp : t.hostRsp = s.hostRsp) (seq : t.seq = s.seq)
      (chk : t.chkOk = s.chkOk) (rdb : t.ph = .bRd ↔ s.ph = .bRd)
  | faulted (f : BlockFault) (ph : t.ph = .idle) (rsp : t.hostRsp = s.hostRsp ++ [.fault f])
      (seq : t.seq = s.seq)
      (chk : t.chkOk = s.chkOk ∨ (s.ph ≠ .bRd ∧ t.chkOk = false))
  | gaveByte (b : Byte) (ph : t.ph = .idle) (rsp : t.hostRsp = s.hostRsp ++ [.byte b])
      (seq : t.seq = s.seq) (chk : t.chkOk = s.chkOk) (rdb : s.ph = .bRd)
  | gaveFrame (l u q c : Byte) (d : List Byte) (k : Byte) (good : Bool) (ph : t.ph = .idle)
      (rsp : t.hostRsp = s.hostRsp ++ [.frame l u q c d k good])
      (seq : t.seq = if s.seqPolicy then s.seq else q) (chk : t.chkOk = good)
      (rdb : s.ph ≠ .bRd)

/-- `CAUSE <- 0` keeps `CHK_OK` (10_state R25). -/
theorem chkOk_withCause_zero (status : Byte) :
    (withCause status 0).getLsbD 4 = status.getLsbD 4 := by
  revert status
  decide

/-- Latching a fault's code keeps `CHK_OK` (10_state R25). -/
theorem chkOk_withCause_code (status : Byte) (f : BlockFault) :
    (withCause status f.code).getLsbD 4 = status.getLsbD 4 := by
  revert status
  cases f <;> decide

/-- Replacing `CHK_OK` replaces it (10_state R25). -/
theorem chkOk_withChkOk (status : Byte) (good : Bool) :
    (withChkOk status good).getLsbD 4 = good := by
  revert status
  cases good <;> decide

@[simp] theorem raiseFault_chkOk (f : BlockFault) (st : State) :
    (st.raiseFault f).chkOk = st.chkOk := chkOk_withCause_code st.status f

@[simp] theorem finish_chkOk (r : Response) (st : State) : (st.finish r).chkOk = st.chkOk :=
  chkOk_withCause_zero st.status

@[simp] theorem compareChecksum_chkOk (k : Byte) (st : State) :
    (st.compareChecksum k).chkOk = (k == st.lat.acc) := chkOk_withChkOk st.status _

@[simp] theorem returnFrame_chkOk (k : Byte) (good : Bool) (st : State) :
    (st.returnFrame k good).chkOk = st.chkOk := chkOk_withCause_zero st.status

theorem takeLength_keeps (v : Byte) (st : State) :
    RxKeeps st (st.takeLength v) ∧ (st.takeLength v).rx = st.rx := by
  unfold State.takeLength
  split <;> exact ⟨by constructor <;> simp, by simp⟩

theorem returnFrame_keeps (k : Byte) (good : Bool) (st : State) :
    RxKeeps st (st.returnFrame k good) ∧ (st.returnFrame k good).rx = st.rx :=
  ⟨by constructor <;> rfl, rfl⟩

theorem compareChecksum_keeps (k : Byte) (st : State) :
    RxKeeps st (st.compareChecksum k) ∧ (st.compareChecksum k).rx = st.rx :=
  ⟨by constructor <;> rfl, rfl⟩

theorem takeChecksum_keeps (k : Byte) (st : State) :
    RxKeeps st (st.takeChecksum k) ∧ (st.takeChecksum k).rx = st.rx := by
  unfold State.takeChecksum
  split
  · exact ⟨(compareChecksum_keeps k st).1.trans (by constructor <;> simp), by
      simp [(compareChecksum_keeps k st).2]⟩
  · exact ⟨(compareChecksum_keeps k st).1.trans (returnFrame_keeps k _ _).1, rfl⟩

theorem takeLogical_keeps (v : Byte) (st : State) :
    RxKeeps st (st.takeLogical v) ∧ (st.takeLogical v).rx = st.rx := by
  unfold State.takeLogical
  split
  · exact ⟨by constructor <;> simp, by simp⟩
  · exact takeLength_keeps v st
  · exact ⟨by constructor <;> rfl, rfl⟩
  · exact ⟨by constructor <;> rfl, rfl⟩
  · exact ⟨by constructor <;> rfl, rfl⟩
  · exact ⟨by constructor <;> rfl, rfl⟩
  · exact takeChecksum_keeps v st
  · exact ⟨.rfl, rfl⟩

theorem takeRaw_keeps (b : Byte) (st : State) :
    RxKeeps st (st.takeRaw b) ∧ (st.takeRaw b).rx = st.rx := by
  unfold State.takeRaw State.takeHunt State.takeEscaped
  split
  · split
    · exact ⟨by constructor <;> rfl, rfl⟩
    · exact ⟨.rfl, rfl⟩
  · split
    · obtain ⟨h, g⟩ := takeLogical_keeps (b + 1) { st with escp := false }
      exact ⟨RxKeeps.trans (by constructor <;> rfl) h, g⟩
    · split
      · exact ⟨by constructor <;> rfl, rfl⟩
      · exact takeLogical_keeps b st

theorem takeAnswer_keeps (a : RxAnswer) (st : State) :
    RxKeeps st (st.takeAnswer a) ∧ (st.takeAnswer a).rx = st.rx := by
  unfold State.takeAnswer
  split
  · exact takeRaw_keeps _ st
  · split
    · exact ⟨by constructor <;> simp, by simp⟩
    · exact ⟨.rfl, rfl⟩

theorem takeLength_outcome (v : Byte) (st : State) (h : st.ph = .dLen) :
    RxOutcome st (st.takeLength v) := by
  unfold State.takeLength
  split
  · exact .faulted .malformedLen (by simp) (by simp) (by simp) (.inl (raiseFault_chkOk _ _))
  · exact .goesOn (by simp [Phase.receiving, Phase.inBody]) rfl rfl rfl (by simp [h])

/-- The checksum byte: a fault comes only from a failed comparison, so `CHK_OK` is 0 after it. -/
theorem takeChecksum_outcome (k : Byte) (st : State) (h : st.ph = .dChk) :
    RxOutcome st (st.takeChecksum k) := by
  unfold State.takeChecksum
  split
  · next hc =>
    have hk : (k == st.lat.acc) = false := by simp_all
    exact .faulted .malformedChk rfl rfl rfl (.inr ⟨by simp [h], by simp [hk]⟩)
  · exact .gaveFrame st.lat.l st.lat.s st.lat.q st.lat.c (st.lat.dbuf.take st.dataLen) k
      (k == st.lat.acc) rfl rfl rfl (by simp) (by simp [h])

theorem dataPhase_receiving (n m : Nat) : (dataPhase .dData .dChk n m).receiving = true := by
  unfold dataPhase
  split <;> rfl

theorem dataPhase_ne_bRd (n m : Nat) : dataPhase .dData .dChk n m ≠ .bRd := by
  unfold dataPhase
  split <;> simp

theorem takeLogical_outcome (v : Byte) (st : State) (h : st.ph.inBody = true) :
    RxOutcome st (st.takeLogical v) := by
  unfold State.takeLogical
  split
  · next hp => exact .gaveByte v (by simp) (by simp) (by simp) (finish_chkOk _ _) hp
  · next hp => exact takeLength_outcome v st hp
  · next hp => exact .goesOn rfl rfl rfl rfl (by simp [hp])
  · next hp => exact .goesOn rfl rfl rfl rfl (by simp [hp])
  · next hp =>
    exact .goesOn (dataPhase_receiving _ _) rfl rfl rfl
      (by simp [hp, State.takeCommand, dataPhase_ne_bRd])
  · next hp =>
    exact .goesOn (dataPhase_receiving _ _) rfl rfl rfl
      (by simp [hp, State.takeData, dataPhase_ne_bRd])
  · next hp => exact takeChecksum_outcome v st hp
  · exfalso
    revert h
    cases hp : st.ph <;> simp_all [Phase.inBody]

theorem inBody_ne_hunt {p : Phase} (h : p.inBody = true) : p ≠ .dHunt := by
  rintro rfl
  simp [Phase.inBody] at h

theorem inBody_of_receiving {p : Phase} (h : p.receiving = true) (g : p ≠ .dHunt) :
    p.inBody = true := by
  simpa [Phase.receiving, g] using h

/-- Any answer, with no assumption on the state but that the block waits in a `RawRead`. -/
theorem takeAnswer_outcome (a : RxAnswer) (st : State) (h : st.ph.receiving = true) :
    RxOutcome st (st.takeAnswer a) := by
  unfold State.takeAnswer
  split
  · next b =>
    unfold State.takeRaw
    split
    · next hp =>
      unfold State.takeHunt
      split
      · exact .goesOn rfl rfl rfl rfl (by simp [hp])
      · exact .goesOn h rfl rfl rfl Iff.rfl
    · next hp =>
      have hb := inBody_of_receiving h hp
      unfold State.takeEscaped
      split
      · have := takeLogical_outcome (b + 1) { st with escp := false } hb
        cases this with
        | goesOn p r s c i => exact .goesOn p r s c i
        | faulted f p r s c => exact .faulted f p r s c
        | gaveByte b p r s c i => exact .gaveByte b p r s c i
        | gaveFrame l u q c d k g p r s h i => exact .gaveFrame l u q c d k g p r s h i
      · split
        · exact .goesOn h rfl rfl rfl Iff.rfl
        · exact takeLogical_outcome b st hb
  · split
    · next f _ => exact .faulted f (by simp) (by simp) (by simp) (.inl (by simp))
    · exact .goesOn h rfl rfl rfl Iff.rfl

/-! ### A run over the answers -/

theorem runRx_idle (as : List RxAnswer) (st : State) (h : st.ph.receiving = false) :
    runRx as st = { st with rx := as } := by
  cases as <;> simp [runRx, h]

theorem runRx_cons (a : RxAnswer) (as : List RxAnswer) (st : State) (h : st.ph.receiving = true) :
    runRx (a :: as) st = runRx as (st.takeAnswer a) := by
  simp [runRx, h]

/-- A run changes none of the fields an answer leaves alone. -/
theorem runRx_keeps (as : List RxAnswer) (st : State) : RxKeeps st (runRx as st) := by
  induction as generalizing st with
  | nil => constructor <;> rfl
  | cons a as ih =>
    unfold runRx
    split
    · exact (takeAnswer_keeps a st).1.trans (ih _)
    · constructor <;> rfl

/-- What a run leaves unread is an end part of what was there. -/
theorem runRx_rx_suffix (as : List RxAnswer) (st : State) : (runRx as st).rx <:+ as := by
  induction as generalizing st with
  | nil => exact List.suffix_rfl
  | cons a as ih =>
    unfold runRx
    split
    · exact (ih _).trans (List.suffix_cons a as)
    · exact List.suffix_rfl

/-- Everything a run can do to the operation in progress. -/
theorem runRx_outcome (as : List RxAnswer) (st : State) (h : st.ph.receiving = true) :
    RxOutcome st (runRx as st) := by
  induction as generalizing st with
  | nil => exact .goesOn h rfl rfl rfl Iff.rfl
  | cons a as ih =>
    rw [runRx_cons a as st h]
    have hk := (takeAnswer_keeps a st).1
    have stops (t : State) (ht : t.ph = .idle) : runRx as t = { t with rx := as } :=
      runRx_idle as t (by rw [ht]; rfl)
    cases takeAnswer_outcome a st h with
    | goesOn p r s c i =>
      have hp : (st.takeAnswer a).seqPolicy = st.seqPolicy := by simp [State.seqPolicy, hk.ctrl]
      cases ih _ p with
      | goesOn p' r' s' c' i' =>
        exact .goesOn p' (r'.trans r) (s'.trans s) (c'.trans c) (i'.trans i)
      | faulted f p' r' s' c' =>
        exact .faulted f p' (by rw [r', r]) (s'.trans s) (by rwa [c, Ne, i] at c')
      | gaveByte b p' r' s' c' i' =>
        exact .gaveByte b p' (by rw [r', r]) (s'.trans s) (c'.trans c) (i.mp i')
      | gaveFrame l u q x d k g p' r' s' c' i' =>
        exact .gaveFrame l u q x d k g p' (by rw [r', r]) (by rw [s', hp, s]) c' (i' ∘ i.mpr)
    | faulted f p r s c => rw [stops _ p]; exact .faulted f p r s c
    | gaveByte b p r s c i => rw [stops _ p]; exact .gaveByte b p r s c i
    | gaveFrame l u q x d k g p r s c i =>
      rw [stops _ p]; exact .gaveFrame l u q x d k g p r s c i

/-- The hunt discards every byte that is not the sync (42_frame_decoder R141). -/
theorem runRx_hunt (noise : List Byte) (as : List RxAnswer) (st : State) (h : st.ph = .dHunt)
    (hn : Config.syncByte ∉ noise) : runRx (noise.map .byte ++ as) st = runRx as st := by
  induction noise with
  | nil => rfl
  | cons b bs ih =>
    have hb : b ≠ Config.syncByte := fun e => hn (by simp [e])
    rw [List.map_cons, List.cons_append, runRx_cons _ _ _ (by rw [h]; rfl)]
    have : st.takeAnswer (.byte b) = st := by
      simp [State.takeAnswer, State.takeRaw, State.takeHunt, h, hb]
    rw [this]
    exact ih (fun m => hn (by simp [m]))

/-- The sync ends the hunt. -/
theorem runRx_sync (as : List RxAnswer) (st : State) (h : st.ph = .dHunt) :
    runRx (.byte Config.syncByte :: as) st = runRx as { st with ph := .dLen } := by
  rw [runRx_cons _ _ _ (by rw [h]; rfl)]
  simp [State.takeAnswer, State.takeRaw, State.takeHunt, h]

theorem receiving_of_inBody {p : Phase} (h : p.inBody = true) : p.receiving = true := by
  simp [Phase.receiving, h]

/-- One raw byte that is no sentinel is one logical byte. -/
theorem runRx_literal (b : Byte) (as : List RxAnswer) (st : State) (h : st.ph.inBody = true)
    (he : st.escp = false) (hb : b ≠ Config.escByte) :
    runRx (.byte b :: as) st = runRx as (st.takeLogical b) := by
  rw [runRx_cons _ _ _ (receiving_of_inBody h)]
  simp [State.takeAnswer, State.takeRaw, State.takeEscaped, inBody_ne_hunt h, he, hb]

/-- A sentinel and its follow byte are one logical byte (40_byte_stuffing_codec R102). -/
theorem runRx_pair (f : Byte) (as : List RxAnswer) (st : State) (h : st.ph.inBody = true)
    (he : st.escp = false) :
    runRx (.byte Config.escByte :: .byte f :: as) st = runRx as (st.takeLogical (f + 1)) := by
  rw [runRx_cons _ _ _ (receiving_of_inBody h)]
  have h1 : st.takeAnswer (.byte Config.escByte) = { st with escp := true } := by
    simp [State.takeAnswer, State.takeRaw, State.takeEscaped, inBody_ne_hunt h, he]
  rw [h1, runRx_cons (.byte f) as { st with escp := true } (receiving_of_inBody h)]
  have h2 : { { st with escp := true } with escp := false } = st := by
    cases st
    simp at he
    simp [he]
  simp only [State.takeAnswer, State.takeRaw, State.takeEscaped, inBody_ne_hunt h, if_false, if_true]
  rw [h2]

/-- The first logical byte of raw bytes, whatever raw form it has (30_encoding R87, R88, R92). -/
theorem unescape_cons {raw : List Byte} {v : Byte} {vs : List Byte}
    (h : unescape raw = some (v :: vs)) :
    ∃ r1 r2, raw = r1 ++ r2 ∧ unescape r2 = some vs ∧
      ∀ (as : List RxAnswer) (st : State), st.ph.inBody = true → st.escp = false →
        runRx (r1.map .byte ++ as) st = runRx as (st.takeLogical v) := by
  unfold unescape at h
  cases raw with
  | nil => simp [unescapeFrom] at h
  | cons b bs =>
    unfold unescapeFrom at h
    split at h
    · next hb =>
      cases bs with
      | nil => simp [unescapeFrom] at h
      | cons f rest =>
        simp only [unescapeFrom, Option.map_eq_some_iff] at h
        obtain ⟨ws, hw, e⟩ := h
        injection e with e1 e2
        subst e1 e2
        exact ⟨[b, f], rest, rfl, hw, fun as st hi he => by
          rw [hb]; exact runRx_pair f as st hi he⟩
    · next hb =>
      simp only [Option.map_eq_some_iff] at h
      obtain ⟨ws, hw, e⟩ := h
      injection e with e1 e2
      subst e1 e2
      exact ⟨[b], bs, rfl, hw, fun as st hi he => runRx_literal b as st hi he hb⟩

theorem unescape_nil {raw : List Byte} (h : unescape raw = some []) : raw = [] := by
  unfold unescape at h
  cases raw with
  | nil => rfl
  | cons b bs =>
    unfold unescapeFrom at h
    split at h
    · cases bs <;> simp [unescapeFrom] at h
    · simp at h

/-- Reading undoes the escape (40_byte_stuffing_codec R106). -/
theorem unescape_escBytes (v : Byte) (rest : List Byte) :
    unescape (escBytes v ++ rest) = (unescape rest).map (fun vs => v :: vs) := by
  unfold escBytes needsEscape unescape
  split
  · simp [unescapeFrom]
  · next h =>
    have hv : v ≠ Config.escByte := by
      rintro rfl
      simp at h
    simp [unescapeFrom, hv]

theorem unescape_escList (vs : List Byte) : unescape (escList vs) = some vs := by
  induction vs with
  | nil => rfl
  | cons v vs ih => rw [escList, unescape_escBytes, ih]; rfl

end Sys2Proof.Machine
end

