-- ==== Sys2Proof/Laws/Decoder.lean ====
section
/-! SUPPORT. What `DEC` makes of the body of a frame (42_frame_decoder R142 to R145). -/

namespace Sys2Proof.Machine

theorem sumBytes_append (a b : List Byte) : sumBytes (a ++ b) = sumBytes a + sumBytes b := by
  induction a with
  | nil => simp [sumBytes]
  | cons x xs ih => simp only [List.cons_append, sumBytes, ih]; ac_rfl

theorem chkSum_snoc (l s q c v : Byte) (d : List Byte) :
    chkSum l s q c (d ++ [v]) = chkSum l s q c d + v := by
  simp only [chkSum, sumBytes_append, sumBytes]
  simp only [BitVec.ofNat_eq_ofNat, BitVec.add_zero]
  ac_rfl

theorem accumulate_eq (acc : Byte) (d : List Byte) : accumulate acc d = acc + sumBytes d := by
  induction d generalizing acc with
  | nil => simp [accumulate, sumBytes]
  | cons b bs ih => simp only [accumulate, ih, sumBytes]; ac_rfl

/-- The latches when the data of a frame are all there and the checksum byte is next. -/
def gathered (l s q c k : Byte) (d : List Byte) : Latches :=
  { l := l, s := s, q := q, c := c, k := k, acc := chkSum l s q c d,
    idx := BitVec.ofNat 8 d.length, dbuf := d }

/-- The data phase takes its `L − 4` bytes and no more, in arrival order (42_frame_decoder R144). -/
theorem runRx_data {l s q c k : Byte} (d done : List Byte) {raw : List Byte} {tail : List Byte}
    (as : List RxAnswer) (st : State) (hd : d ≠ []) (hp : st.ph = .dData) (he : st.escp = false)
    (hl : l.toNat = done.length + d.length + Config.overhead)
    (hs : st.lat = gathered l s q c k done) (hu : unescape raw = some (d ++ tail)) :
    ∃ r2, unescape r2 = some tail ∧
      runRx (raw.map .byte ++ as) st =
        runRx (r2.map .byte ++ as) { st with ph := .dChk, lat := gathered l s q c k (done ++ d) } := by
  induction d generalizing done raw st with
  | nil => exact absurd rfl hd
  | cons v vs ih =>
    obtain ⟨r1, r2, rfl, hu2, hrun⟩ := unescape_cons hu
    have hlt : l.toNat < 256 := l.isLt
    simp only [List.length_cons, Config.overhead] at hl
    have hidx : (BitVec.ofNat 8 done.length).toNat = done.length := by
      simp only [BitVec.toNat_ofNat]; omega
    have hstep : st.takeLogical v =
        { st with
          ph := if vs = [] then .dChk else .dData, lat := gathered l s q c k (done ++ [v]) } := by
      have hph : dataPhase Phase.dData Phase.dChk (done.length + 1) (l.toNat - 4) =
          if vs = [] then .dChk else .dData := by
        unfold dataPhase
        cases vs with
        | nil => simp at hl ⊢; omega
        | cons w ws => simp at hl ⊢; omega
      simp only [State.takeLogical, hp, State.takeData, State.dataLen, hs, gathered, hidx,
        Config.overhead, hph, chkSum_snoc, List.length_append, List.length_singleton,
        List.take_length]
      congr 2
      simp [BitVec.ofNat_add]
    rw [List.map_append, List.append_assoc, hrun _ _ (by rw [hp]; rfl) he, hstep]
    by_cases hv : vs = []
    · subst hv
      exact ⟨r2, by simpa using hu2, by simp⟩
    · obtain ⟨r3, h3, hr⟩ := ih (done ++ [v]) (raw := r2)
        { st with ph := .dData, lat := gathered l s q c k (done ++ [v]) } hv rfl he
        (by simp only [List.length_append, List.length_singleton, Config.overhead]; omega) rfl hu2
      exact ⟨r3, h3, by simp only [hv, if_false]; rw [hr]; simp⟩

/-- A whole frame body, in any raw forms (42_frame_decoder R142, R144, R145): after it the decoder has
taken the checksum byte and reads no further. -/
theorem runRx_frameBody {l s q c k : Byte} {d raw : List Byte} (as : List RxAnswer) (st : State)
    (hp : st.ph = .dLen) (he : st.escp = false) (hl : l.toNat = d.length + Config.overhead)
    (hu : unescape raw = some (l :: s :: q :: c :: (d ++ [k]))) :
    runRx (raw.map .byte ++ as) st =
      runRx as (State.takeChecksum k
        { st with ph := .dChk, lat := gathered l s q c st.lat.k d }) := by
  have hlt : l.toNat < 256 := l.isLt
  obtain ⟨r1, x1, rfl, hu1, h1⟩ := unescape_cons hu
  obtain ⟨r2, x2, rfl, hu2, h2⟩ := unescape_cons hu1
  obtain ⟨r3, x3, rfl, hu3, h3⟩ := unescape_cons hu2
  obtain ⟨r4, x4, rfl, hu4, h4⟩ := unescape_cons hu3
  simp only [List.map_append, List.append_assoc]
  rw [h1 _ st (by rw [hp]; rfl) he]
  have e1 : st.takeLogical l = { st with lat := { st.lat with l := l }, ph := .dSub } := by
    have : ¬ l.toNat < Config.overhead := by simp only [Config.overhead] at *; omega
    simp [State.takeLogical, hp, State.takeLength, this]
  rw [e1, h2 _ _ (by rfl) (by exact he)]
  simp only [State.takeLogical]
  rw [h3 _ _ (by rfl) (by exact he)]
  simp only [State.takeLogical]
  rw [h4 _ _ (by rfl) (by exact he)]
  simp only [State.takeLogical, State.takeCommand, State.dataLen, Config.overhead]
  by_cases hd : d = []
  · subst hd
    have hz : dataPhase Phase.dData Phase.dChk 0 (l.toNat - 4) = .dChk := by
      simp only [List.length_nil, Config.overhead] at hl
      simp [dataPhase, hl]
    obtain ⟨r5, x5, rfl, hu5, h5⟩ := unescape_cons (v := k) (vs := []) (by simpa using hu4)
    rw [unescape_nil hu5, hz]
    simp only [List.append_nil]
    rw [h5 _ _ (by rfl) (by exact he)]
    simp [State.takeLogical, gathered, headerSum, chkSum, sumBytes]
  · have hz : dataPhase Phase.dData Phase.dChk 0 (l.toNat - 4) = .dData := by
      have : 0 < d.length := List.length_pos_iff.mpr hd
      simp only [Config.overhead] at hl
      simp [dataPhase]; omega
    rw [hz]
    obtain ⟨r5, hu5, hr⟩ := runRx_data (l := l) (s := s) (q := q) (c := c) (k := st.lat.k) d []
      (raw := x4) (tail := [k]) as
      { st with
        lat := { st.lat with l := l, s := s, q := q, c := c, acc := headerSum l s q c, idx := 0, dbuf := [] }
        ph := .dData } hd rfl he (by simpa using hl)
      (by simp [gathered, headerSum, chkSum, sumBytes]) hu4
    obtain ⟨r6, x6, rfl, hu6, h6⟩ := unescape_cons hu5
    rw [hr, unescape_nil hu6]
    simp only [List.append_nil, List.nil_append]
    rw [h6 _ _ (by rfl) (by exact he)]
    simp [State.takeLogical]

end Sys2Proof.Machine
end

