-- ==== Sys2Proof/Laws/Tx.lean ====
section
/-! SUPPORT. What transmitting does: one answer to a `RawWrite`, and a run over the answers there are.
`State.txRest` names the raw bytes an operation in progress still has to write. -/

namespace Sys2Proof.Machine

/-! ### What transmitting leaves unchanged -/

/-- The fields no answer to a `RawWrite` changes. -/
structure TxKeeps (s t : State) : Prop where
  seq : t.seq = s.seq
  ctrl : t.ctrl = s.ctrl
  hostCmd : t.hostCmd = s.hostCmd
  rx : t.rx = s.rx
  resetPin : t.resetPin = s.resetPin
  wbuf : t.wbuf = s.wbuf
  exch : t.exch = s.exch
  rxDrawn : t.rxDrawn = s.rxDrawn
  txDrawn : t.txDrawn = s.txDrawn
  chkOk : t.chkOk = s.chkOk

theorem TxKeeps.rfl {s : State} : TxKeeps s s := by constructor <;> first | trivial

theorem TxKeeps.trans {s t u : State} (h : TxKeeps s t) (g : TxKeeps t u) : TxKeeps s u where
  seq := g.seq.trans h.seq
  ctrl := g.ctrl.trans h.ctrl
  hostCmd := g.hostCmd.trans h.hostCmd
  rx := g.rx.trans h.rx
  resetPin := g.resetPin.trans h.resetPin
  wbuf := g.wbuf.trans h.wbuf
  exch := g.exch.trans h.exch
  rxDrawn := g.rxDrawn.trans h.rxDrawn
  txDrawn := g.txDrawn.trans h.txDrawn
  chkOk := g.chkOk.trans h.chkOk

theorem written_keeps (st : State) : TxKeeps st st.written := by
  unfold State.written
  split <;> constructor <;> first | rfl | exact chkOk_withCause_zero st.status

theorem takeWrite_keeps (a : TxAnswer) (st : State) : TxKeeps st (st.takeWrite a) := by
  cases a with
  | fatal =>
    constructor <;> first | rfl | exact chkOk_withCause_code st.status .transportFatal
  | ok =>
    simp only [State.takeWrite, State.accepted]
    split
    · constructor <;> rfl
    · exact TxKeeps.trans (by constructor <;> rfl) (written_keeps _)

/-- An accepted raw byte leaves `ESCP` alone. -/
theorem accepted_escp (st : State) : st.accepted.escp = st.escp := by
  unfold State.accepted State.written
  split
  · rfl
  · split <;> rfl

/-! ### A run over the answers -/

theorem runTx_idle (as : List TxAnswer) (st : State) (h : st.ph.transmitting = false) :
    runTx as st = { st with txAns := as } := by
  cases as <;> simp [runTx, h]

theorem runTx_cons (a : TxAnswer) (as : List TxAnswer) (st : State)
    (h : st.ph.transmitting = true) : runTx (a :: as) st = runTx as (st.takeWrite a) := by
  simp [runTx, h]

/-- A run changes none of the fields an answer leaves alone. -/
theorem runTx_keeps (as : List TxAnswer) (st : State) : TxKeeps st (runTx as st) := by
  induction as generalizing st with
  | nil => constructor <;> rfl
  | cons a as ih =>
    unfold runTx
    split
    · exact (takeWrite_keeps a st).trans (ih _)
    · constructor <;> rfl

/-! ### The bytes still to be written -/

/-- The raw bytes of the logical byte in hand that are still to be written. -/
def pendingBytes (mid : Bool) (v : Byte) : List Byte :=
  if mid && needsEscape v then [v - 1] else escBytes v

/-- The raw bytes that follow the one byte in hand. -/
def State.txAfter (st : State) : List Byte :=
  match st.ph with
  | .eSync => escList (st.lat.l :: st.lat.s :: st.lat.q :: st.lat.c :: (st.lat.dbuf ++ [st.lat.k]))
  | .eLen => escList (st.lat.s :: st.lat.q :: st.lat.c :: (st.lat.dbuf ++ [st.lat.k]))
  | .eSub => escList (st.lat.q :: st.lat.c :: (st.lat.dbuf ++ [st.lat.k]))
  | .eSeq => escList (st.lat.c :: (st.lat.dbuf ++ [st.lat.k]))
  | .eCmd => escList (st.lat.dbuf ++ [st.lat.k])
  | .eData => escList (st.lat.dbuf.drop (st.lat.idx.toNat + 1) ++ [st.lat.k])
  | _ => []

/-- The raw bytes an operation in progress still has to write. -/
def State.txRest (st : State) : List Byte :=
  if st.ph = .eSync then Config.syncByte :: st.txAfter
  else if st.ph.escaping then pendingBytes st.txMid st.txLogical ++ st.txAfter
  else []

/-- A transmission in order: the length fits the data, the data index is in range, and a follow byte is
outstanding only in a pair. -/
structure State.Sending (st : State) : Prop where
  transmitting : st.ph.transmitting = true
  mid : st.txMid = true → st.txPair = true
  length : st.ph ≠ .bWr → st.lat.l.toNat = st.lat.dbuf.length + Config.overhead
  index : st.ph = .eData → st.lat.idx.toNat < st.lat.dbuf.length

theorem escBytes_ne_nil (v : Byte) : escBytes v ≠ [] := by
  unfold escBytes
  split <;> simp

theorem escList_append (a b : List Byte) : escList (a ++ b) = escList a ++ escList b := by
  induction a with
  | nil => rfl
  | cons x xs ih => simp [escList, ih]

theorem pendingBytes_false (v : Byte) : pendingBytes false v = escBytes v := by
  simp [pendingBytes]

theorem escList_cons_ne_nil (v : Byte) (vs : List Byte) : escList (v :: vs) ≠ [] := by
  simp [escList, escBytes_ne_nil]

/-- The phase moves on to the bytes that follow, or the operation ends where none do. -/
theorem written_spec (st : State) (h : st.Sending) (hm : st.txMid = false) :
    (st.txAfter ≠ [] ∧ st.written.Sending ∧ st.written.txRest = st.txAfter ∧
        st.written.hostRsp = st.hostRsp ∧ st.written.status = st.status ∧ st.ph ≠ .bWr ∧
        st.written.ph ≠ .bWr) ∨
      (st.txAfter = [] ∧ st.written.ph = .idle ∧ st.written.hostRsp = st.hostRsp ++ [.ok] ∧
        st.written.status = withCause st.status 0) := by
  obtain ⟨ht, -, hl, hi⟩ := h
  cases hp : st.ph
  case bWr => right; simp [State.txAfter, State.written, hp]
  case eChk => right; simp [State.txAfter, State.written, hp]
  case eSync =>
    left
    refine ⟨by simp [State.txAfter, hp, escList_cons_ne_nil], ⟨?_, ?_, ?_, ?_⟩, ?_, ?_⟩ <;>
      simp_all [State.written, Phase.transmitting, Phase.escaping, State.txRest, State.txLogical,
        State.txAfter, pendingBytes_false, escList]
  case eLen =>
    left
    refine ⟨by simp [State.txAfter, hp, escList_cons_ne_nil], ⟨?_, ?_, ?_, ?_⟩, ?_, ?_⟩ <;>
      simp_all [State.written, Phase.transmitting, Phase.escaping, State.txRest, State.txLogical,
        State.txAfter, pendingBytes_false, escList]
  case eSub =>
    left
    refine ⟨by simp [State.txAfter, hp, escList_cons_ne_nil], ⟨?_, ?_, ?_, ?_⟩, ?_, ?_⟩ <;>
      simp_all [State.written, Phase.transmitting, Phase.escaping, State.txRest, State.txLogical,
        State.txAfter, pendingBytes_false, escList]
  case eSeq =>
    left
    refine ⟨by simp [State.txAfter, hp, escList_cons_ne_nil], ⟨?_, ?_, ?_, ?_⟩, ?_, ?_⟩ <;>
      simp_all [State.written, Phase.transmitting, Phase.escaping, State.txRest, State.txLogical,
        State.txAfter, pendingBytes_false, escList]
  case eCmd =>
    left
    have hne : st.txAfter ≠ [] := by
      simp [State.txAfter, hp, escList_append, escList, escBytes_ne_nil]
    have hl' := hl (by simp [hp])
    simp only [Config.overhead] at hl'
    cases hd : st.lat.dbuf with
    | nil =>
      refine ⟨hne, ⟨?_, ?_, ?_, ?_⟩, ?_, ?_⟩ <;>
        simp_all [State.written, Phase.transmitting, Phase.escaping, State.txRest, State.txLogical,
          State.txAfter, pendingBytes_false, escList, dataPhase, State.dataLen, Config.overhead]
    | cons v vs =>
      have hlt : 4 < st.lat.l.toNat := by rw [hl', hd]; simp
      refine ⟨hne, ⟨?_, ?_, ?_, ?_⟩, ?_, ?_⟩ <;>
        simp_all [State.written, Phase.transmitting, Phase.escaping, State.txRest, State.txLogical,
          State.txAfter, pendingBytes_false, escList, dataPhase, State.dataLen, Config.overhead,
          State.dbufAt]
  case eData =>
    left
    have hne : st.txAfter ≠ [] := by
      simp [State.txAfter, hp, escList_append, escList, escBytes_ne_nil]
    have hl' := hl (by simp [hp])
    have hi' := hi hp
    simp only [Config.overhead] at hl'
    have hlt : st.lat.l.toNat < 256 := st.lat.l.isLt
    have hmod : (st.lat.idx.toNat + 1) % 256 = st.lat.idx.toNat + 1 := Nat.mod_eq_of_lt (by omega)
    have hlen : st.dataLen = st.lat.dbuf.length := by
      simp only [State.dataLen, Config.overhead]; omega
    have hafter : st.txAfter = escList (st.lat.dbuf.drop (st.lat.idx.toNat + 1) ++ [st.lat.k]) := by
      simp [State.txAfter, hp]
    by_cases hmore : st.lat.idx.toNat + 1 < st.lat.dbuf.length
    · have hw : st.written =
          { st with lat := { st.lat with idx := st.lat.idx + 1 }, ph := .eData } := by
        simp [State.written, hp, dataPhase, hlen, hmore]
      have hrest : st.written.txRest = st.txAfter := by
        rw [hafter, hw]
        simp only [State.txRest, Phase.escaping, State.txLogical, State.dbufAt, hm,
          pendingBytes_false, State.txAfter]
        rw [List.drop_eq_getElem_cons hmore]
        simp [hmod, hmore, -List.getElem_cons_drop, escList]
      refine ⟨hne, ⟨?_, ?_, ?_, ?_⟩, hrest, ?_⟩ <;>
        simp [hw, hm, hmod, hmore, hl', Phase.transmitting, Phase.escaping, Config.overhead]
    · have hw : st.written =
          { st with lat := { st.lat with idx := st.lat.idx + 1 }, ph := .eChk } := by
        simp [State.written, hp, dataPhase, hlen, hmore]
      have hrest : st.written.txRest = st.txAfter := by
        rw [hafter, hw, List.drop_eq_nil_of_le (by omega)]
        simp [State.txRest, Phase.escaping, State.txLogical, hm, pendingBytes_false, State.txAfter,
          escList]
      refine ⟨hne, ⟨?_, ?_, ?_, ?_⟩, hrest, ?_⟩ <;>
        simp [hw, hm, hl', Phase.transmitting, Phase.escaping, Config.overhead]
  all_goals simp [hp, Phase.transmitting, Phase.escaping] at ht

/-- The byte in hand, escaped: the raw byte going out, and what is still pending of it. -/
theorem pendingBytes_cons (st : State) (h : st.ph.escaping = true)
    (hm : st.txMid = true → st.txPair = true) :
    pendingBytes st.txMid st.txLogical =
      st.txRaw :: (if st.txPair && !st.txMid then [st.txLogical - 1] else []) := by
  have hp : st.txPair = needsEscape st.txLogical := by simp [State.txPair, h]
  rw [hp] at hm ⊢
  unfold pendingBytes State.txRaw escBytes
  rw [hp]
  cases hn : needsEscape st.txLogical <;> cases hx : st.txMid <;> simp_all

theorem escaping_ne_sync {p : Phase} (h : p.escaping = true) : p ≠ .eSync := by
  rintro rfl
  simp [Phase.escaping] at h

/-- What one accepted raw byte does to a transmission in order: it is the next of the bytes still to be
written, and when it was the last the operation ends with `Ok`. -/
theorem accepted_spec (st : State) (h : st.Sending) :
    ∃ r rs, st.txRest = r :: rs ∧ st.accepted.tx = st.tx ++ [r] ∧
      ((rs ≠ [] ∧ st.accepted.Sending ∧ st.accepted.txRest = rs ∧
          st.accepted.hostRsp = st.hostRsp ∧ st.accepted.status = st.status ∧
          (st.ph ≠ .bWr → st.accepted.ph ≠ .bWr)) ∨
        (rs = [] ∧ st.accepted.ph = .idle ∧ st.accepted.hostRsp = st.hostRsp ++ [.ok] ∧
          st.accepted.status = withCause st.status 0)) := by
  by_cases hc : (st.txPair && !st.txMid) = true
  · -- the sentinel of a pair: its follow byte comes next
    have hesc : st.ph.escaping = true := by
      simp only [State.txPair, Bool.and_eq_true] at hc; exact hc.1.1
    have hne := escaping_ne_sync hesc
    have hacc : st.accepted = { st with tx := st.tx ++ [st.txRaw], txMid := true } := by
      simp [State.accepted, hc]
    have hpair : needsEscape st.txLogical = true := by
      simp only [State.txPair, Bool.and_eq_true] at hc; exact hc.1.2
    refine ⟨st.txRaw, [st.txLogical - 1] ++ st.txAfter, ?_, by rw [hacc], .inl ⟨by simp, ?_⟩⟩
    · rw [State.txRest, if_neg hne, if_pos hesc, pendingBytes_cons st hesc h.mid, if_pos hc]
      rfl
    · rw [hacc]
      refine ⟨⟨h.transmitting, fun _ => ?_, h.length, h.index⟩, ?_, rfl, rfl, id⟩
      · simp only [Bool.and_eq_true] at hc; exact hc.1
      · have hlog : State.txLogical { st with tx := st.tx ++ [st.txRaw], txMid := true } =
            st.txLogical := rfl
        have haft : State.txAfter { st with tx := st.tx ++ [st.txRaw], txMid := true } =
            st.txAfter := rfl
        rw [State.txRest, if_neg hne, if_pos hesc, hlog, haft]
        simp [pendingBytes, hpair]
  · -- the byte in hand is accepted whole
    have hacc : st.accepted =
        State.written { st with tx := st.tx ++ [st.txRaw], txMid := false } := by
      simp only [State.accepted, hc]; rfl
    have hsend : State.Sending { st with tx := st.tx ++ [st.txRaw], txMid := false } :=
      ⟨h.transmitting, by simp, h.length, h.index⟩
    have hrest : st.txRest = st.txRaw :: st.txAfter := by
      by_cases hsy : st.ph = .eSync
      · have : st.txRaw = Config.syncByte := by
          simp [State.txRaw, State.txPair, hsy, Phase.escaping, State.txLogical]
        rw [State.txRest, if_pos hsy, this]
      · have hesc : st.ph.escaping = true := by
          have := h.transmitting
          simpa [Phase.transmitting, hsy] using this
        rw [State.txRest, if_neg hsy, if_pos hesc, pendingBytes_cons st hesc h.mid, if_neg hc]
        rfl
    have hk := (written_keeps { st with tx := st.tx ++ [st.txRaw], txMid := false })
    have htx : st.accepted.tx = st.tx ++ [st.txRaw] := by
      rw [hacc]; unfold State.written; split <;> rfl
    refine ⟨st.txRaw, st.txAfter, hrest, htx, ?_⟩
    rw [hacc]
    rcases written_spec _ hsend rfl with ⟨h1, h2, h3, h4, h5, h6, h7⟩ | ⟨h1, h2, h3, h4⟩
    · exact .inl ⟨h1, h2, h3, h4, h5, fun _ => h7⟩
    · exact .inr ⟨h1, h2, h3, h4⟩

/-- A run over k acceptances, not more than there are bytes to be written: exactly the first k of them
have gone out, in order, and the operation has ended with `Ok` when they were all. -/
theorem runTx_accepts (k : Nat) (as : List TxAnswer) (st : State) (h : st.Sending)
    (hk : k ≤ st.txRest.length) :
    ∃ t, runTx (List.replicate k .ok ++ as) st = runTx as t ∧ t.tx = st.tx ++ st.txRest.take k ∧
      TxKeeps st t ∧ t.escp = st.escp ∧
      ((k < st.txRest.length ∧ t.Sending ∧ t.txRest = st.txRest.drop k ∧ t.hostRsp = st.hostRsp ∧
          t.status = st.status) ∨
        (k = st.txRest.length ∧ t.ph = .idle ∧ t.hostRsp = st.hostRsp ++ [.ok] ∧
          t.status = withCause st.status 0)) := by
  induction k generalizing st with
  | zero =>
    obtain ⟨r, rs, hr, -⟩ := accepted_spec st h
    exact ⟨st, rfl, by simp, .rfl, rfl, .inl ⟨by simp [hr], h, by simp, rfl, rfl⟩⟩
  | succ k ih =>
    obtain ⟨r, rs, hr, htx, hcase⟩ := accepted_spec st h
    have hrun : runTx (List.replicate (k + 1) .ok ++ as) st =
        runTx (List.replicate k .ok ++ as) st.accepted := by
      rw [List.replicate_succ, List.cons_append, runTx_cons _ _ _ h.transmitting]
      rfl
    have hkeep : TxKeeps st st.accepted := takeWrite_keeps .ok st
    rw [hr, List.length_cons] at hk
    rw [hrun]
    rcases hcase with ⟨hne, hs, hre, hrsp, hst, -⟩ | ⟨hnil, hph, hrsp, hst⟩
    · obtain ⟨t, h1, h2, h3, he, h4⟩ := ih st.accepted hs (by rw [hre]; omega)
      refine ⟨t, h1, by rw [h2, htx, hre, hr]; simp, hkeep.trans h3,
        by rw [he, accepted_escp], ?_⟩
      rw [hr, List.length_cons]
      rcases h4 with ⟨g1, g2, g3, g4, g5⟩ | ⟨g1, g2, g3, g4⟩
      · exact .inl ⟨by rw [hre] at g1; omega, g2, by rw [g3, hre]; rfl, by rw [g4, hrsp],
          by rw [g5, hst]⟩
      · exact .inr ⟨by rw [hre] at g1; omega, g2, by rw [g3, hrsp], by rw [g4, hst]⟩
    · subst hnil
      have hk0 : k = 0 := by simpa using hk
      subst hk0
      exact ⟨st.accepted, rfl, by rw [htx, hr]; simp, hkeep, accepted_escp st, .inr ⟨by simp [hr], hph, hrsp, hst⟩⟩

/-- A run over any answers: what has gone out is a first part of the bytes still to be written, and the
operation is in progress without a response or has ended with one. -/
theorem runTx_any (as : List TxAnswer) (st : State) (h : st.Sending) :
    ∃ sent, (runTx as st).tx = st.tx ++ sent ∧ sent <+: st.txRest ∧
      (((runTx as st).ph.transmitting = true ∧ (runTx as st).hostRsp = st.hostRsp) ∨
        ((runTx as st).ph = .idle ∧ ∃ r, (runTx as st).hostRsp = st.hostRsp ++ [r])) := by
  induction as generalizing st with
  | nil => exact ⟨[], by simp [runTx], List.nil_prefix, .inl ⟨h.transmitting, rfl⟩⟩
  | cons a as ih =>
    rw [runTx_cons _ _ _ h.transmitting]
    cases a with
    | fatal =>
      rw [runTx_idle _ _ (by simp [State.takeWrite, Phase.transmitting, Phase.escaping])]
      exact ⟨[], by simp [State.takeWrite], List.nil_prefix,
        .inr ⟨by simp [State.takeWrite], .fault .transportFatal, by simp [State.takeWrite]⟩⟩
    | ok =>
      obtain ⟨r, rs, hr, htx, hc⟩ := accepted_spec st h
      show ∃ sent, (runTx as st.accepted).tx = _ ∧ _
      simp only [State.takeWrite]
      rcases hc with ⟨-, hs, hre, hrsp, -⟩ | ⟨hnil, hph, hrsp, -⟩
      · obtain ⟨sent, h1, h2, h3⟩ := ih st.accepted hs
        refine ⟨r :: sent, by rw [h1, htx]; simp, ?_, by rw [← hrsp]; exact h3⟩
        rw [hr, ← hre]
        exact List.cons_prefix_cons.mpr ⟨rfl, h2⟩
      · rw [runTx_idle _ _ (by rw [hph]; rfl)]
        exact ⟨[r], htx, by rw [hr, hnil], .inr ⟨hph, _, hrsp⟩⟩

/-- A `WRB` that has just started is a transmission in order, of the raw bytes of its operand. -/
theorem sending_startWrb (v : Byte) (st : State) :
    State.Sending { st with ph := .bWr, wbuf := v, txMid := false } ∧
      State.txRest { st with ph := .bWr, wbuf := v, txMid := false } = escBytes v :=
  ⟨⟨rfl, by simp, by simp, by simp⟩, by
    simp [State.txRest, Phase.escaping, pendingBytes, State.txLogical, State.txAfter]⟩

/-- An admitted `ENC` that has just started is a transmission in order. -/
theorem sending_startEnc (st : State) (sub cmd : Byte) (data : List Byte)
    (h : data.length ≤ Config.maxData) :
    State.Sending
      { st with
        seq := st.encodeSeq, lat := encodeLatches sub st.encodeSeq cmd data, ph := .eSync,
        txMid := false } := by
  refine ⟨rfl, by simp, fun _ => ?_, by simp⟩
  simp only [Config.maxData] at h
  simp only [encodeLatches, lengthField, Config.overhead, BitVec.toNat_ofNat]
  omega

/-- What an admitted `ENC` has to write is the frame of 00_scope R15. -/
theorem txRest_startEnc (st : State) (sub cmd : Byte) (data : List Byte) :
    State.txRest
        { st with
          seq := st.encodeSeq, lat := encodeLatches sub st.encodeSeq cmd data, ph := .eSync,
          txMid := false } =
      frameBytes sub st.encodeSeq cmd data := by
  simp [State.txRest, State.txAfter, encodeLatches, frameBytes, frameWire, accumulate_eq, headerSum,
    chkSum]

end Sys2Proof.Machine
end

