-- ==== Sys2Proof/Laws/PerInstr.lean ====
section
/-! SUPPORT. One statement per instruction: the number of bytes of its encoding (30_encoding R70, R78 to
R80, R83, R94). -/

namespace Sys2Proof.Laws.EncodeLength

/-- How many bytes each row of the opcode table has: one operation word and the operand bytes of R83; one
raw byte per wire symbol but two per pair; L + 2 logical bytes per frame. -/
def bytesOf : Instr → Nat
  | .wrb _ => 2
  | .rdb => 1
  | .enc _ _ data => 4 + data.length
  | .dec => 1
  | .rdreg _ => 1
  | .wrreg _ _ => 2
  | .srst => 1
  | .reserved _ => 1
  | .sync => 1
  | .skip _ => 1
  | .esc => 1
  | .lit _ => 1
  | .follow _ => 1
  | .txsync => 1
  | .txescD0 => 2
  | .txescE0 => 2
  | .txlit _ => 1
  | .frame _ _ _ _ d _ => Config.overhead + d.length + 2
  | .cmdReset => 1
  | .cmdLed => 1
  | .cmdFelicaProbe => 1
  | .cmdAltProbe => 1
  | .resetCmd => 5
  | .felicaProbe => 5
  | .ledSet _ _ _ => 8
  | .altProbe40 => 6
  | .exchange _ _ data => 5 + data.length

/-- The encoding of an instruction has as many bytes as its row. -/
def Statement (i : Instr) : Prop := (encode i).length = bytesOf i

theorem wrb (v : Byte) : Statement (.wrb v) := rfl
theorem rdb : Statement .rdb := rfl
theorem enc (sub cmd : Byte) (data : List Byte) : Statement (.enc sub cmd data) := by
  simp only [Statement, encode, encodeEnc, bytesOf, List.length_cons]; omega
theorem dec : Statement .dec := rfl
theorem rdreg (r : BitVec 2) : Statement (.rdreg r) := rfl
theorem wrreg (r : BitVec 2) (v : Byte) : Statement (.wrreg r v) := rfl
theorem srst : Statement .srst := rfl
theorem reserved (w : Byte) : Statement (.reserved w) := rfl
theorem sync : Statement .sync := rfl
theorem skip (b : Byte) : Statement (.skip b) := rfl
theorem esc : Statement .esc := rfl
theorem lit (b : Byte) : Statement (.lit b) := rfl
theorem follow (b : Byte) : Statement (.follow b) := rfl
theorem txsync : Statement .txsync := rfl
theorem txescD0 : Statement .txescD0 := rfl
theorem txescE0 : Statement .txescE0 := rfl
theorem txlit (b : Byte) : Statement (.txlit b) := rfl
theorem frame (l s q c : Byte) (d : List Byte) (k : Byte) : Statement (.frame l s q c d k) := by
  simp only [Statement, encode, bytesOf, Config.overhead, List.length_cons, List.length_append,
    List.length_nil]
  omega
theorem cmdReset : Statement .cmdReset := rfl
theorem cmdLed : Statement .cmdLed := rfl
theorem cmdFelicaProbe : Statement .cmdFelicaProbe := rfl
theorem cmdAltProbe : Statement .cmdAltProbe := rfl
theorem resetCmd : Statement .resetCmd := rfl
theorem felicaProbe : Statement .felicaProbe := rfl
theorem ledSet (red green blue : Byte) : Statement (.ledSet red green blue) := rfl
theorem altProbe40 : Statement .altProbe40 := rfl
theorem exchange (sub cmd : Byte) (data : List Byte) : Statement (.exchange sub cmd data) := by
  simp only [Statement, encode, encodeEnc, bytesOf, List.length_cons, List.length_append,
    List.length_nil]
  omega

end Sys2Proof.Laws.EncodeLength
end

