-- ==== Sys2Proof/Laws/Step.lean ====
section
/-! SUPPORT. What exec does with the symbols of the wire, and everything a step can do. -/

namespace Sys2Proof.Machine

/-! ### Where a meaning runs -/

theorem whenIdle_eq_next {op : State → State} {s t : State} :
    whenIdle op s = .next t ↔ s.ph = .idle ∧ t = op s := by
  unfold whenIdle
  split <;> simp_all [eq_comm]

theorem inContext_eq_next {here : Bool} {op : State → State} {s t : State} :
    inContext here op s = .next t ↔ here = true ∧ t = op s := by
  unfold inContext
  split <;> simp_all [eq_comm]

/-! ### The symbols -/

/-- In a receive phase the symbol of a raw byte takes that byte (30_encoding R78). -/
theorem exec_rxSymbol (b : Byte) (s : State) (h : s.ph.receiving = true) :
    exec (rxSymbol (s.ph == .dHunt) s.escp b) s = .next (s.takeRaw b) := by
  unfold rxSymbol
  by_cases hp : s.ph = .dHunt
  · by_cases hb : b = Config.syncByte <;>
      simp [hp, hb, exec, execSync, execSkip, inContext]
  · have hbody := inBody_of_receiving h hp
    cases he : s.escp
    · by_cases hb : b = Config.escByte <;>
        simp [hp, hb, exec, execEsc, execLit, inContext, State.bodyWith, hbody, he]
    · simp [hp, exec, execFollow, inContext, State.bodyWith, hbody, he]

/-- A literal in a body with no escape pending, or a follow byte with one, delivers its logical byte
(30_encoding R78). -/
theorem exec_lit_delivers (v : Byte) (s : State) (h : s.ph.inBody = true) (he : s.escp = false)
    (hv : v ≠ Config.escByte) : exec (.lit v) s = .next (s.takeLogical v) := by
  simp [exec, execLit, inContext, State.bodyWith, h, he, hv, State.takeRaw, inBody_ne_hunt h,
    State.takeEscaped]

theorem exec_follow_delivers (f : Byte) (s : State) (h : s.ph.inBody = true)
    (he : s.escp = true) :
    exec (.follow f) s = .next (State.takeLogical (f + 1) { s with escp := false }) := by
  simp [exec, execFollow, inContext, State.bodyWith, h, he, State.takeRaw, inBody_ne_hunt h,
    State.takeEscaped]

/-- The writes of the byte in hand: one, or the two of an escape pair. -/
def State.writeInHand (s : State) : State :=
  if s.txPair then s.rawWritePair else s.rawWrite

/-- In a transmit phase the symbol of the byte in hand writes it (30_encoding R79). -/
theorem exec_txSymbol (s : State) (h : s.ph.transmitting = true) :
    exec (txSymbol (s.ph == .eSync) s.txLogical) s = .next s.writeInHand := by
  unfold txSymbol State.writeInHand
  by_cases hp : s.ph = .eSync
  · simp [hp, exec, execTxsync, inContext, State.txPair, Phase.escaping]
  · have he : s.ph.escaping = true := by simpa [Phase.transmitting, hp] using h
    by_cases hd : s.txLogical = Config.escByte
    · simp [hp, hd, exec, execTxescD0, inContext, State.writing, he, State.txPair, needsEscape]
    · by_cases hy : s.txLogical = Config.syncByte
      · have hne : ¬ Config.syncByte = Config.escByte := by decide
        simp [hp, hy, hne, exec, execTxescE0, inContext, State.writing, he, State.txPair,
          needsEscape]
      · simp [hp, hd, hy, exec, execTxlit, inContext, State.writing, he, State.txPair, needsEscape]

/-! ### One raw write -/

/-- What one raw write does: an answer is taken, from the queue or drawn, or there is none yet. -/
theorem rawWrite_cases (s : State) :
    (∃ a as, s.txAns = a :: as ∧ s.rawWrite = State.takeWrite a { s with txAns := as }) ∨
      (s.txAns = [] ∧ ∃ a, s.rawWrite = State.takeWrite a { s with txDrawn := s.txDrawn + 1 }) ∨
      (s.txAns = [] ∧ s.rawWrite = { s with txDrawn := s.txDrawn + 1 }) := by
  unfold State.rawWrite
  split
  · next a as h => exact .inl ⟨a, as, h, rfl⟩
  · next h =>
    split
    · next a _ => exact .inr (.inl ⟨h, a, rfl⟩)
    · exact .inr (.inr ⟨h, rfl⟩)

/-- The writes of the byte in hand are one raw write or two. -/
theorem writeInHand_cases (s : State) :
    s.writeInHand = s.rawWrite ∨ s.writeInHand = s.rawWrite.rawWrite := by
  unfold State.writeInHand State.rawWritePair
  split
  · split
    · exact .inl rfl
    · split
      · exact .inr rfl
      · exact .inl rfl
  · exact .inl rfl

/-! ### The host's half of an EXCHANGE -/

/-- Everything the host's half of an `EXCHANGE` can do: nothing, be dropped, or issue the `DEC`. -/
theorem followUp_cases (s : State) :
    s.followUp = s ∨ s.followUp = { s with exch := false } ∨
      (s.exch = true ∧ s.ph = .idle ∧ s.hostRsp.getLast? = some .ok ∧
        s.followUp = State.startDec { s with exch := false }) := by
  unfold State.followUp
  split
  · next h =>
    split
    · next hl => exact .inr (.inr ⟨by simp_all, by simp_all, hl, rfl⟩)
    · exact .inr (.inl rfl)
  · exact .inl rfl

/-! ### Everything a step can do -/

/-- A block that is neither idle nor receiving is transmitting. -/
theorem transmitting_of_busy {p : Phase} (h : p ≠ .idle) (g : p.receiving = false) :
    p.transmitting = true := by
  cases p <;> simp_all [Phase.receiving, Phase.inBody, Phase.transmitting, Phase.escaping]

theorem not_receiving_of_transmitting {p : Phase} (h : p.transmitting = true) :
    p ≠ .idle ∧ p.receiving = false := by
  cases p <;> simp_all [Phase.receiving, Phase.inBody, Phase.transmitting, Phase.escaping]

/-- Everything a step can do. -/
inductive StepOutcome (s t : State) : Prop where
  | reset (pin : s.resetPin = true) (eq : t = s.applyReset)
  | follows (pin : s.resetPin = false) (ph : s.ph = .idle) (exch : s.exch = true)
      (eq : t = s.followUp)
  | runs (pin : s.resetPin = false) (ph : s.ph = .idle) (exch : s.exch = false) (i : Instr)
      (rest : List Byte) (dec : decode s.hostCmd = .ok (i, rest))
      (eq : exec i { s with hostCmd := rest } = .next t)
  | waits (pin : s.resetPin = false) (ph : s.ph = .idle) (exch : s.exch = false)
      (e : DecodeError) (dec : decode s.hostCmd = .error e) (eq : t = s)
  | takes (pin : s.resetPin = false) (ph : s.ph.receiving = true) (a : RxAnswer)
      (as : List RxAnswer) (rx : s.rx = a :: as) (eq : t = State.takeAnswer a { s with rx := as })
  | draws (pin : s.resetPin = false) (ph : s.ph.receiving = true) (a : RxAnswer)
      (rx : s.rx = []) (eq : t = State.takeAnswer a { s with rxDrawn := s.rxDrawn + 1 })
  | blocks (pin : s.resetPin = false) (ph : s.ph.receiving = true) (rx : s.rx = [])
      (eq : t = { s with rxDrawn := s.rxDrawn + 1 })
  | writes (pin : s.resetPin = false) (ph : s.ph.transmitting = true) (eq : t = s.writeInHand)

theorem step_outcome {s t : State} (h : step s = .next t) : StepOutcome s t := by
  unfold step State.fetch at h
  split at h
  · next i s' hf =>
    split at hf
    · cases hf
    · next hpin =>
      have hpin : s.resetPin = false := by simpa using hpin
      split at hf
      · next hp =>
        unfold State.fetchHost at hf
        split at hf
        · cases hf
        · next he =>
          have he : s.exch = false := by simpa using he
          split at hf
          · next i' rest hd =>
            cases hf
            exact .runs hpin hp he i rest hd h
          · cases hf
      · next hp =>
        split at hf
        · next hr =>
          unfold State.fetchRx State.rawRead at hf
          cases hx : s.rx with
          | cons a as =>
            simp only [hx] at hf
            cases a <;> simp only [Fetched.run.injEq, reduceCtorEq] at hf
            next b =>
              obtain ⟨rfl, rfl⟩ := hf
              rw [exec_rxSymbol b { s with rx := as } hr] at h
              injection h with h
              exact .takes hpin hr (.byte b) as hx h.symm
          | nil =>
            simp only [hx] at hf
            cases ha : Config.rxAnswer s.rxDrawn with
            | none => simp [ha] at hf
            | some a =>
              simp only [ha] at hf
              cases a <;> simp only [Fetched.run.injEq, reduceCtorEq] at hf
              next b =>
                obtain ⟨rfl, rfl⟩ := hf
                rw [exec_rxSymbol b { s with rx := [], rxDrawn := s.rxDrawn + 1 } hr] at h
                injection h with h
                refine .draws hpin hr (.byte b) hx ?_
                rw [← hx] at h
                exact h.symm
        · next hr =>
          have hr : s.ph.receiving = false := by simpa using hr
          have ht := transmitting_of_busy hp hr
          simp only [State.fetchTx, Fetched.run.injEq] at hf
          obtain ⟨rfl, rfl⟩ := hf
          rw [exec_txSymbol s ht] at h
          injection h with h
          exact .writes hpin ht h.symm
  · next s' hf =>
    injection h with h
    subst h
    split at hf
    · next hpin =>
      injection hf with hf
      exact .reset hpin hf.symm
    · next hpin =>
      have hpin : s.resetPin = false := by simpa using hpin
      split at hf
      · next hp =>
        unfold State.fetchHost at hf
        split at hf
        · next he =>
          injection hf with hf
          exact .follows hpin hp he hf.symm
        · next he =>
          have he : s.exch = false := by simpa using he
          split at hf
          · cases hf
          · next e hd =>
            injection hf with hf
            exact .waits hpin hp he e hd hf.symm
      · next hp =>
        split at hf
        · next hr =>
          unfold State.fetchRx State.rawRead at hf
          cases hx : s.rx with
          | cons a as =>
            simp only [hx] at hf
            cases a <;> simp only [Fetched.moved.injEq, reduceCtorEq] at hf
            all_goals exact .takes hpin hr _ as hx hf.symm
          | nil =>
            simp only [hx] at hf
            cases ha : Config.rxAnswer s.rxDrawn with
            | none =>
              simp only [ha, Fetched.moved.injEq] at hf
              rw [← hx] at hf
              exact .blocks hpin hr hx hf.symm
            | some a =>
              simp only [ha] at hf
              cases a <;> simp only [Fetched.moved.injEq, reduceCtorEq] at hf
              all_goals
                rw [← hx] at hf
                exact .draws hpin hr _ hx hf.symm
        · simp [State.fetchTx] at hf

end Sys2Proof.Machine
end

