-- ==== Sys2Proof/Tests/Slice0.lean ====
section
/-! SUPPORT. The model's own tests: ill-formed terms are refused, words written out from the spec decode to
what they stand for, the vectors of 95_test_vectors, and for each statement with hypotheses a state and
operands that meet them. -/

open Sys2Proof Sys2Proof.Machine

namespace Sys2Proof.Tests

/-! ### Ill-formed terms (WellFormed), one for each check -/

theorem test_enc_256_data_refused :
    ¬ WellFormed (.enc 0x00 0x42 (List.replicate 256 0x00)) := by decide +kernel

theorem test_reserved_assigned_word_refused : ¬ WellFormed (.reserved 0x60) := by decide

theorem test_skip_sync_refused : ¬ WellFormed (.skip 0xE0) := by decide

theorem test_lit_sentinel_refused : ¬ WellFormed (.lit 0xD0) := by decide

theorem test_txlit_sentinel_refused : ¬ WellFormed (.txlit 0xD0) := by decide

theorem test_txlit_sync_refused : ¬ WellFormed (.txlit 0xE0) := by decide

/-- The frame of S4 with a length byte one too large. -/
theorem test_frame_wrong_length_refused :
    ¬ WellFormed (.frame 0x06 0x00 0x05 0x62 [0x00] 0x6D) := by decide

/-- The frame of S4 with a wrong checksum (V34 in kind). -/
theorem test_frame_wrong_checksum_refused :
    ¬ WellFormed (.frame 0x05 0x00 0x05 0x62 [0x00] 0x6B) := by decide

theorem test_exchange_252_data_refused :
    ¬ WellFormed (.exchange 0x00 0x42 (List.replicate 252 0x00)) := by decide +kernel

/-- The frame of S4 is a frame. -/
theorem test_frame_s4_accepted : WellFormed (.frame 0x05 0x00 0x05 0x62 [0x00] 0x6C) := by decide

/-! ### Decoding: words written out from 30_encoding, bit by bit where a word has fields -/

/-- R84: op 000, zero 000, r 00; operand 0x41. -/
theorem test_decode_wrb : decode [0b00000000, 0x41] = .ok (.wrb 0x41, []) := by decide

/-- R84: op 001. -/
theorem test_decode_rdb : decode [0b00100000] = .ok (.rdb, []) := by decide

/-- R83, R84: op 010, then sub, cmd, n = 2, two data bytes; the byte after them is left. -/
theorem test_decode_enc :
    decode [0b01000000, 0x08, 0x81, 0x02, 0xAA, 0xBB, 0x60] =
      .ok (.enc 0x08 0x81 [0xAA, 0xBB], [0x60]) := by decide

/-- R84: op 011. -/
theorem test_decode_dec : decode [0b01100000] = .ok (.dec, []) := by decide

/-- R84: op 100, r 10. -/
theorem test_decode_rdreg : decode [0b10000010] = .ok (.rdreg 2, []) := by decide

/-- R84, R91: op 101, r 11; the operand byte belongs to the operation. -/
theorem test_decode_wrreg : decode [0b10100011, 0x01] = .ok (.wrreg 3 0x01, []) := by decide

/-- R84: op 110. -/
theorem test_decode_srst : decode [0b11000000] = .ok (.srst, []) := by decide

/-- R91: op 111. -/
theorem test_decode_reserved : decode [0b11100000] = .ok (.reserved 0xE0, []) := by decide

/-- V4F: op 000 with zero 001. -/
theorem test_decode_wrb_zero_field : decode [0b00000100] = .ok (.reserved 0x04, []) := by decide

/-- R83: a count byte of 2 with one data byte is not an operation yet. -/
theorem test_decode_enc_short :
    decode [0b01000000, 0x00, 0x62, 0x02, 0x00] = .error .operandsMissing := by decide

/-- R78: the raw byte 0xE0 in the hunt, and in a body. -/
theorem test_decode_sync :
    decodeAs .rxHunt [0b11100000] = .ok (.sync, []) ∧
      decodeAs .rxFirst [0b11100000] = .ok (.lit 0xE0, []) := by decide

/-- R78: 0xD0 included. -/
theorem test_decode_skip : decodeAs .rxHunt [0b11010000] = .ok (.skip 0xD0, []) := by decide

/-- R78. -/
theorem test_decode_esc : decodeAs .rxFirst [0b11010000] = .ok (.esc, []) := by decide

/-- R78. -/
theorem test_decode_lit : decodeAs .rxFirst [0b11001111] = .ok (.lit 0xCF, []) := by decide

/-- R78, R89: a second 0xD0 is a follow byte. -/
theorem test_decode_follow : decodeAs .rxFollow [0b11010000] = .ok (.follow 0xD0, []) := by decide

/-- R79. -/
theorem test_decode_txsync : decodeAs .txsym [0b11100000] = .ok (.txsync, []) := by decide

/-- R79: `D0 CF`. -/
theorem test_decode_txescD0 :
    decodeAs .txsym [0b11010000, 0b11001111] = .ok (.txescD0, []) := by decide

/-- R79: `D0 DF`. -/
theorem test_decode_txescE0 :
    decodeAs .txsym [0b11010000, 0b11011111] = .ok (.txescE0, []) := by decide

/-- R79. -/
theorem test_decode_txlit : decodeAs .txsym [0b11011111] = .ok (.txlit 0xDF, []) := by decide

/-- S4: the frame of R70 byte by byte. -/
theorem test_decode_frame :
    decodeAs .frame [0xE0, 0x05, 0x00, 0x05, 0x62, 0x00, 0x6C] =
      .ok (.frame 0x05 0x00 0x05 0x62 [0x00] 0x6C, []) := by decide

/-- R80. -/
theorem test_decode_cmdReset : decodeAs .cmdcode [0b01100010] = .ok (.cmdReset, []) := by decide

theorem test_decode_cmdLed : decodeAs .cmdcode [0b10000001] = .ok (.cmdLed, []) := by decide

theorem test_decode_cmdFelicaProbe :
    decodeAs .cmdcode [0b01000010] = .ok (.cmdFelicaProbe, []) := by decide

theorem test_decode_cmdAltProbe :
    decodeAs .cmdcode [0b01000000] = .ok (.cmdAltProbe, []) := by decide

/-- V50. -/
theorem test_decode_resetCmd :
    decodeAs .pseudo [0x40, 0x00, 0x62, 0x01, 0x00] = .ok (.resetCmd, []) := by decide

/-- V51. -/
theorem test_decode_felicaProbe :
    decodeAs .pseudo [0x40, 0x00, 0x42, 0x01, 0x00] = .ok (.felicaProbe, []) := by decide

/-- V54: LED_SET 0x00, 0x00, 0xFF; the wire order is red, blue, green. -/
theorem test_decode_ledSet :
    decodeAs .pseudo [0x40, 0x08, 0x81, 0x04, 0x03, 0x00, 0xFF, 0x00] =
      .ok (.ledSet 0x00 0x00 0xFF, []) := by decide

/-- V56. -/
theorem test_decode_altProbe40 :
    decodeAs .pseudo [0x40, 0x00, 0x40, 0x02, 0x01, 0x03] = .ok (.altProbe40, []) := by decide

/-- V57: the bytes of the `ENC`, then those of the `DEC`. -/
theorem test_decode_exchange :
    decodeAs .pseudo [0x40, 0x00, 0x62, 0x01, 0x00, 0x60] =
      .ok (.exchange 0x00 0x62 [0x00], []) := by decide

/-- The opcode table's numbers: the first byte is the most significant. -/
theorem test_table_words :
    decodeTableWord 8 0x83 = some (.rdreg 3) ∧ decodeTableWord 16 0xD0CF = some .txescD0 ∧
      decodeTableWord 8 0xD0 = some .esc ∧ decodeTableWord 8 0x62 = some .cmdReset ∧
      decodeTableWord 40 0x4000620100 = some .resetCmd := by decide

/-- A placed word is what the next step runs. -/
theorem test_placed_words :
    step (State.reset.withFetchWord 8 0xC0) = exec .srst { State.reset with hostCmd := [0, 0, 0] } ∧
      step (State.reset.withFetchWord 8 0xD0) = exec .esc { State.reset with ph := .bRd } :=
  ⟨rfl, rfl⟩

/-! ### The vectors of 95_test_vectors -/

/-- An idle block with SEQ, CTRL and STATUS as given. -/
def block (seq ctrl status : Byte) : State :=
  { State.reset with seq := seq, ctrl := ctrl, status := status }

/-- What a vector's row lists; `left` is how many answers to a `RawRead` are left. -/
structure Row where
  rsp : List Response
  tx : List Byte
  seq : Byte
  ctrl : Byte
  status : Byte
  escp : Bool
  left : Nat
deriving DecidableEq, Repr

/-- The row of an outcome. -/
def row (o : Result) : Option Row :=
  match o with
  | .next t => some ⟨t.hostRsp, t.tx, t.seq, t.ctrl, t.status, t.escp, t.rx.length⟩
  | _ => none

/-- The phase, and the responses, after one symbol. -/
def phaseRow (o : Result) : Option (Phase × Bool × List Response) :=
  match o with
  | .next t => some (t.ph, t.escp, t.hostRsp)
  | _ => none

/-- V1: `WRB 0xE0`. -/
theorem test_v1_wrb :
    row (exec (.wrb 0xE0) { block 0x00 0x00 0x10 with txAns := oks 2 }) =
      some ⟨[.ok], [0xD0, 0xDF], 0x00, 0x00, 0x10, false, 0⟩ := by decide

/-- V5: `WRB 0xE0`, the second write `Fatal`. -/
theorem test_v5_wrb_fault :
    row (exec (.wrb 0xE0) { block 0x00 0x00 0x00 with txAns := [.ok, .fatal] }) =
      some ⟨[.fault .transportFatal], [0xD0], 0x00, 0x00, 0x06, false, 0⟩ := by decide

/-- V2: `D0 FF` reads 0x00. -/
theorem test_v2_rdb :
    row (exec .rdb { block 0x00 0x00 0x00 with rx := arriving [0xD0, 0xFF, 0x55] }) =
      some ⟨[.byte 0x00], [], 0x00, 0x00, 0x00, false, 1⟩ := by decide

/-- V4: `D0 <Closed>`. -/
theorem test_v4_rdb_fault :
    row (exec .rdb { block 0x00 0x00 0x00 with rx := [.byte 0xD0, .closed] }) =
      some ⟨[.fault .truncatedEscape], [], 0x00, 0x00, 0x03, false, 0⟩ := by decide

/-- V16: sub, seqnum, command and data escaped. -/
theorem test_v16_enc :
    row (exec (.enc 0xE0 0xD0 [0xD0, 0xE0, 0xCF, 0xDF])
        { block 0xD0 0x00 0x00 with txAns := oks 15 }) =
      some ⟨[.ok], [0xE0, 0x08, 0xD0, 0xDF, 0xD0, 0xCF, 0xD0, 0xCF, 0xD0, 0xCF, 0xD0, 0xDF, 0xCF,
        0xDF, 0xE6], 0xD0, 0x00, 0x00, false, 0⟩ := by decide +kernel

/-- P4, step 3: policy increment wraps 0xFF to 0x00 before it samples; `CHK_OK` stays. -/
theorem test_p4_enc_increment :
    row (exec (.enc 0x00 0x62 [0x00]) { block 0xFF 0x02 0x10 with txAns := oks 7 }) =
      some ⟨[.ok], [0xE0, 0x05, 0x00, 0x00, 0x62, 0x00, 0x67], 0x00, 0x02, 0x10, false, 0⟩ := by
  decide +kernel

/-- V2B: noise, pairs in the data, one byte left in the stream. -/
theorem test_v2b_dec :
    row (exec .dec
        { block 0x07 0x00 0x00 with
          rx := arriving [0x00, 0xFF, 0xE0, 0x11, 0x00, 0x08, 0x42, 0x10, 0x01, 0x02, 0x03, 0x04,
            0x01, 0x2E, 0xD0, 0xCF, 0xD0, 0xDF, 0x55, 0x66, 0x77, 0x88, 0x0E, 0xAA] }) =
      some ⟨[.frame 17 0x00 0x08 0x42 [0x10, 0x01, 0x02, 0x03, 0x04, 0x01, 0x2E, 0xD0, 0xE0, 0x55,
        0x66, 0x77, 0x88] 0x0E true], [], 0x08, 0x00, 0x10, false, 1⟩ := by decide +kernel

/-- V33: enforcement on, wrong checksum; SEQ kept. -/
theorem test_v33_dec_fault :
    row (exec .dec
        { block 0x44 0x01 0x10 with rx := arriving [0xE0, 0x05, 0x00, 0x00, 0x42, 0x00, 0x00] }) =
      some ⟨[.fault .malformedChk], [], 0x44, 0x01, 0x05, false, 0⟩ := by decide +kernel

/-- V44 and V47 in kind: the reserved bits of `CTRL` read 0. -/
theorem test_v44_rdreg :
    row (exec (.rdreg 1) (block 0x00 0xFF 0x00)) =
      some ⟨[.byte 0x03], [], 0x00, 0xFF, 0x00, false, 0⟩ := by decide

/-- V47: `RDREG 3`. -/
theorem test_v47_rdreg :
    row (exec (.rdreg 3) (block 0x00 0x03 0x05)) =
      some ⟨[.refused .illegalReg], [], 0x00, 0x03, 0x05, false, 0⟩ := by decide

/-- V43: `WRREG 1, 0xFF`. -/
theorem test_v43_wrreg :
    row (exec (.wrreg 1 0xFF) (block 0x00 0x00 0x00)) =
      some ⟨[.ok], [], 0x00, 0x03, 0x00, false, 0⟩ := by decide

/-- V45: `WRREG 0, 0x77`. -/
theorem test_v45_wrreg :
    row (exec (.wrreg 0 0x77) (block 0x12 0x00 0x00)) =
      some ⟨[.ok], [], 0x12, 0x00, 0x00, false, 0⟩ := by decide

/-- V49: `SRST`; SEQ at the default of SEQ_RESET the vectors assume, CTRL kept. -/
theorem test_v49_srst :
    row (exec .srst (block 0x09 0x03 0x15)) = some ⟨[.ok], [], 0x00, 0x03, 0x00, false, 0⟩ := by
  decide

/-- V4H: 0xC3 is `IllegalOp`, STATUS unchanged; the step takes one byte. -/
theorem test_v4h_reserved :
    row (step { block 0x01 0x00 0x15 with hostCmd := [0xC3, 0x20] }) =
      some ⟨[.refused .illegalOp], [], 0x01, 0x00, 0x15, false, 0⟩ := by decide

/-- R78: the raw sync ends the hunt. -/
theorem test_r78_sync :
    phaseRow (exec .sync { block 0x00 0x00 0x00 with ph := .dHunt }) =
      some (.dLen, false, []) := by decide

/-- R78, V24: a sentinel in the hunt is discarded and does not escape the next byte. -/
theorem test_r78_skip :
    phaseRow (exec (.skip 0xD0) { block 0x00 0x00 0x00 with ph := .dHunt }) =
      some (.dHunt, false, []) := by decide

/-- R78. -/
theorem test_r78_esc :
    phaseRow (exec .esc { block 0x00 0x00 0x00 with ph := .dSub }) = some (.dSub, true, []) := by
  decide

/-- R78, R88: a raw 0xE0 in a body is a literal. -/
theorem test_r78_lit :
    phaseRow (exec (.lit 0xE0) { block 0x00 0x00 0x00 with ph := .bRd }) =
      some (.idle, false, [.byte 0xE0]) := by decide

/-- R78, V2: `D0 E0` reads 0xE1. -/
theorem test_r78_follow :
    phaseRow (exec (.follow 0xE0) { block 0x00 0x00 0x00 with ph := .bRd, escp := true }) =
      some (.idle, false, [.byte 0xE1]) := by decide

/-- A symbol has no meaning out of its place (log 9). -/
theorem test_sync_out_of_place :
    exec .sync (block 0x00 0x00 0x00) = .fault .symbolOutOfContext := by rfl

/-- R79: the delimiter. -/
theorem test_r79_txsync :
    row (exec .txsync { block 0x00 0x00 0x00 with ph := .eSync, txAns := [.ok] }) =
      some ⟨[], [0xE0], 0x00, 0x00, 0x00, false, 0⟩ := by decide

/-- R79: `D0 CF`. -/
theorem test_r79_txescD0 :
    row (exec .txescD0 { block 0x00 0x00 0x00 with ph := .bWr, wbuf := 0xD0, txAns := oks 2 }) =
      some ⟨[.ok], [0xD0, 0xCF], 0x00, 0x00, 0x00, false, 0⟩ := by decide

/-- R79: `D0 DF`. -/
theorem test_r79_txescE0 :
    row (exec .txescE0 { block 0x00 0x00 0x00 with ph := .bWr, wbuf := 0xE0, txAns := oks 2 }) =
      some ⟨[.ok], [0xD0, 0xDF], 0x00, 0x00, 0x00, false, 0⟩ := by decide

/-- R79. -/
theorem test_r79_txlit :
    row (exec (.txlit 0xCF) { block 0x00 0x00 0x00 with ph := .bWr, wbuf := 0xCF, txAns := oks 1 }) =
      some ⟨[.ok], [0xCF], 0x00, 0x00, 0x00, false, 0⟩ := by decide

/-- V20: a frame arrives. -/
theorem test_v20_frame_arrives :
    row (exec (.frame 0x06 0x00 0x00 0x62 [0x03, 0x00] 0x6B)
        { block 0x44 0x00 0x00 with ph := .dHunt }) =
      some ⟨[.frame 0x06 0x00 0x00 0x62 [0x03, 0x00] 0x6B true], [], 0x00, 0x00, 0x10, false, 0⟩ :=
  by decide +kernel

/-- V17: a frame is sent; its checksum 0xE0 is escaped. -/
theorem test_v17_frame_sent :
    row (exec (.frame 0x05 0x00 0x00 0x42 [0x99] 0xE0)
        { block 0x00 0x00 0x00 with
          ph := .eSync
          lat := { resetLatches with l := 0x05, c := 0x42, k := 0xE0, dbuf := [0x99] }
          txAns := oks 8 }) =
      some ⟨[.ok], [0xE0, 0x05, 0x00, 0x00, 0x42, 0x99, 0xD0, 0xDF], 0x00, 0x00, 0x00, false, 0⟩ :=
  by decide +kernel

/-- R80: the command byte of V20 is received, and goes on to the data. -/
theorem test_r80_cmdReset :
    phaseRow (exec .cmdReset
        { block 0x00 0x00 0x00 with ph := .dCmd, lat := { resetLatches with l := 0x06 } }) =
      some (.dData, false, []) := by decide

/-- R80: 0x81 is sent. -/
theorem test_r80_cmdLed :
    row (exec .cmdLed
        { block 0x00 0x00 0x00 with
          ph := .eCmd, lat := { resetLatches with l := 0x04, c := 0x81 }, txAns := oks 1 }) =
      some ⟨[], [0x81], 0x00, 0x00, 0x00, false, 0⟩ := by decide

/-- R80: with `L = 4` the checksum follows (V28). -/
theorem test_r80_cmdFelicaProbe :
    phaseRow (exec .cmdFelicaProbe
        { block 0x00 0x00 0x00 with ph := .dCmd, lat := { resetLatches with l := 0x04 } }) =
      some (.dChk, false, []) := by decide

/-- R80. -/
theorem test_r80_cmdAltProbe :
    phaseRow (exec .cmdAltProbe
        { block 0x00 0x00 0x00 with ph := .dCmd, lat := { resetLatches with l := 0x06 } }) =
      some (.dData, false, []) := by decide

/-- S4, V10: `RESET_CMD` with SEQ 0x05. -/
theorem test_s4_resetCmd :
    row (exec .resetCmd { block 0x05 0x00 0x00 with txAns := oks 7 }) =
      some ⟨[.ok], [0xE0, 0x05, 0x00, 0x05, 0x62, 0x00, 0x6C], 0x05, 0x00, 0x00, false, 0⟩ := by
  decide +kernel

/-- V52. -/
theorem test_v52_felicaProbe :
    row (exec .felicaProbe { block 0x07 0x00 0x00 with txAns := oks 7 }) =
      some ⟨[.ok], [0xE0, 0x05, 0x00, 0x07, 0x42, 0x00, 0x4E], 0x07, 0x00, 0x00, false, 0⟩ := by
  decide +kernel

/-- V13: red, blue, green. -/
theorem test_v13_ledSet :
    row (exec (.ledSet 0xE0 0xD0 0x10) { block 0x2A 0x00 0x00 with txAns := oks 12 }) =
      some ⟨[.ok], [0xE0, 0x08, 0x08, 0x2A, 0x81, 0x03, 0xD0, 0xDF, 0x10, 0xD0, 0xCF, 0x7E], 0x2A,
        0x00, 0x00, false, 0⟩ := by decide +kernel

/-- V56. -/
theorem test_v56_altProbe40 :
    row (exec .altProbe40 { block 0x00 0x00 0x00 with txAns := oks 8 }) =
      some ⟨[.ok], [0xE0, 0x06, 0x00, 0x00, 0x40, 0x01, 0x03, 0x4A], 0x00, 0x00, 0x00, false, 0⟩ :=
  by decide +kernel

/-- V57. -/
theorem test_v57_exchange :
    row (exec (.exchange 0x00 0x62 [0x00])
        { block 0x00 0x00 0x00 with
          txAns := oks 7, rx := arriving [0xE0, 0x06, 0x00, 0x00, 0x62, 0x03, 0x00, 0x6B] }) =
      some ⟨[.ok, .frame 6 0x00 0x00 0x62 [0x03, 0x00] 0x6B true],
        [0xE0, 0x05, 0x00, 0x00, 0x62, 0x00, 0x67], 0x00, 0x00, 0x10, false, 0⟩ := by
  decide +kernel

/-- V59: the `ENC` faults and no `DEC` is issued. -/
theorem test_v59_exchange :
    row (exec (.exchange 0x00 0x62 [0x00])
        { block 0x00 0x00 0x00 with txAns := [.fatal], rx := arriving [0x55] }) =
      some ⟨[.fault .transportFatal], [], 0x00, 0x00, 0x06, false, 1⟩ := by decide +kernel

/-! ### Witnesses: for each statement with hypotheses, a state and operands that meet them -/

/-- A block in the middle of the data of a frame, with one data byte taken of two. -/
def midFrame : State :=
  { block 0x00 0x00 0x00 with
    ph := .dData
    lat := { resetLatches with l := 0x06, c := 0x62, acc := 0x6B, idx := 1, dbuf := [0x03] }
    rx := arriving [0x00, 0x6B] }

/-- A block at the delimiter of the frame of V17. -/
def atDelimiter : State :=
  { block 0x00 0x00 0x00 with
    ph := .eSync
    lat := { resetLatches with l := 0x05, c := 0x42, k := 0xE0, dbuf := [0x99] } }

theorem midFrame_inv : midFrame.Inv where
  ctrlReserved := by decide
  statusReserved := by decide
  causeProduced := by decide
  escpInBody := by decide
  chkOkClearInDec := by decide
  midInPair := by decide
  latchesFit := by
    show (_ ∧ _) ∧ _ ∧ _
    decide
  responsesLegal := by simp [midFrame, block, State.reset]

theorem atDelimiter_inv : atDelimiter.Inv where
  ctrlReserved := by decide
  statusReserved := by decide
  causeProduced := by decide
  escpInBody := by decide
  chkOkClearInDec := by decide
  midInPair := by decide
  latchesFit := by
    show _ ∧ _
    decide
  responsesLegal := by simp [atDelimiter, block, State.reset]

theorem witness_StepKeepsSoundState_receiving : midFrame.Inv ∧ ∃ t, step midFrame = .next t :=
  ⟨midFrame_inv, _, rfl⟩

theorem witness_StepKeepsSoundState_sending :
    State.Inv { atDelimiter with txAns := [.ok] } ∧
      ∃ t, step { atDelimiter with txAns := [.ok] } = .next t :=
  ⟨⟨atDelimiter_inv.1, atDelimiter_inv.2, atDelimiter_inv.3, atDelimiter_inv.4, atDelimiter_inv.5,
    atDelimiter_inv.6, atDelimiter_inv.7, atDelimiter_inv.8⟩, _, rfl⟩

theorem witness_StepRunsHostOperation :
    ∃ s : State, s.resetPin = false ∧ s.ph = .idle ∧ s.exch = false ∧
      decode s.hostCmd = .ok (.wrreg 1 0xFF, [0x81]) :=
  ⟨{ State.reset with hostCmd := [0xA1, 0xFF, 0x81] }, by decide⟩

theorem witness_StepRunsHostOperation_waits :
    ∃ s : State, s.resetPin = false ∧ s.ph = .idle ∧ s.exch = false ∧
      decode s.hostCmd = .error .operandsMissing :=
  ⟨{ State.reset with hostCmd := [0xA1] }, by decide⟩

/-- Inside an `EXCHANGE` whose `ENC` has ended: with `Ok`, and with a fault (V59). -/
theorem witness_StepRunsHostOperation_exchange :
    (∃ s : State, s.resetPin = false ∧ s.ph = .idle ∧ s.exch = true ∧
        s.hostRsp.getLast? = some .ok) ∧
      ∃ s : State, s.resetPin = false ∧ s.ph = .idle ∧ s.exch = true ∧
        s.hostRsp.getLast? ≠ some .ok :=
  ⟨⟨{ State.reset with exch := true, hostRsp := [.fault .timeout, .ok] }, by decide⟩,
    { State.reset with exch := true, hostRsp := [.ok, .fault .transportFatal] }, by decide⟩

theorem witness_StepRunsWireSymbol :
    ∃ (s : State) (b : Byte) (as : List RxAnswer), s.resetPin = false ∧ s.ph.receiving = true ∧
      s.rx = .byte b :: as :=
  ⟨midFrame, 0x00, arriving [0x6B], by decide⟩

theorem witness_StepRunsWireSymbol_sending :
    atDelimiter.resetPin = false ∧ atDelimiter.ph.transmitting = true := by decide

/-- No answer is queued. -/
theorem witness_StepRunsWireSymbol_drawn :
    (∃ s : State, s.resetPin = false ∧ s.ph.receiving = true ∧ s.rx = []) ∧
      atDelimiter.resetPin = false ∧ atDelimiter.ph.transmitting = true ∧ atDelimiter.txAns = [] :=
  ⟨⟨{ midFrame with rx := [] }, by decide⟩, by decide⟩

theorem witness_ResetInputAtAnyTime : State.resetPin { midFrame with resetPin := true } = true := rfl

theorem witness_DecodeUndoesEncode :
    WellFormed (.enc 0x00 0x42 (List.replicate 255 0x00)) ∧
      WellFormed (.exchange 0x00 0x42 (List.replicate 251 0x00)) ∧ WellFormed (.reserved 0xC3) ∧
      WellFormed (.skip 0xD0) ∧ WellFormed (.lit 0xE0) ∧ WellFormed (.txlit 0xCF) ∧
      WellFormed (.frame 0xFF 0x00 0x00 0x42 (List.replicate 251 0x00) 0x41) := by decide +kernel

theorem witness_HostOperationsDecodeInStream :
    formatOf (.enc 0x00 0x42 (List.replicate 255 0x00)) = .hostop ∧
      WellFormed (.enc 0x00 0x42 (List.replicate 255 0x00)) := by decide +kernel

theorem witness_HostBytesHaveOneReading :
    decode [0x40, 0x00, 0x62, 0x00, 0x60] = .ok (.enc 0x00 0x62 [], [0x60]) := by decide

/-- One word for each of the three reasons of R91: V4D, V4F, V4H. -/
theorem witness_IllegalWordsAreRefused :
    opField 0xE0 = 7 ∧ zeroField 0x04 ≠ 0 ∧
      (regField 0xC3 ≠ 0 ∧ opField 0xC3 ≠ 4 ∧ opField 0xC3 ≠ 5) ∧
      ∃ s : State, s.resetPin = false ∧ s.ph = .idle ∧ s.exch = false ∧
        s.hostCmd = 0xC3 :: [0x20] :=
  ⟨by decide, by decide, by decide, { State.reset with hostCmd := [0xC3, 0x20] }, by decide⟩

theorem witness_WrbWritesEscapedByte :
    ∃ s : State, s.ph = .idle ∧ s.txAns = oks (escBytes 0xE0).length ++ [.fatal] :=
  ⟨{ State.reset with txAns := [.ok, .ok, .fatal] }, by decide⟩

theorem witness_WrbNeverWritesRawSync :
    ∃ s t : State, exec (.wrb 0xE0) s = .next t :=
  ⟨{ State.reset with txAns := [.ok, .fatal] }, _, rfl⟩

theorem witness_RdbReadsOneLogicalByte :
    ∃ s : State, s.ph = .idle ∧ s.rx = arriving [0xE0] ++ [.timeout] :=
  ⟨{ State.reset with rx := [.byte 0xE0, .timeout] }, by decide⟩

/-- The pair whose follow byte wraps (V2): `D0 FF` is the byte 0x00. -/
theorem witness_RdbReadsOneLogicalByte_pair :
    ∃ s : State, s.ph = .idle ∧ s.rx = arriving [0xD0, 0x00 - 1] ++ [] :=
  ⟨{ State.reset with rx := arriving [0xD0, 0xFF] }, by decide⟩

theorem witness_WrittenByteReadsBack :
    ∃ s u : State, s.ph = .idle ∧ s.txAns = oks (escBytes 0xD0).length ++ [] ∧ u.ph = .idle ∧
      u.rx = arriving (escBytes 0xD0) ++ [.closed] :=
  ⟨{ State.reset with txAns := oks 2 },
    { State.reset with rx := [.byte 0xD0, .byte 0xCF, .closed] }, by decide⟩

theorem witness_FrameRawLength : (List.replicate 251 (0xE0 : Byte)).length ≤ 251 := by decide +kernel

theorem witness_EncWritesItsFrame :
    ∃ s : State, s.ph = .idle ∧ (List.replicate 251 (0x00 : Byte)).length ≤ 251 ∧
      s.txAns =
        oks (frameBytes 0x00 (sentSeq s) 0x42 (List.replicate 251 0x00)).length ++ [.ok] :=
  ⟨{ block 0xFF 0x02 0x00 with
      txAns := oks (frameBytes 0x00 0x00 0x42 (List.replicate 251 0x00)).length ++ [.ok] },
    rfl, by decide +kernel, rfl⟩

theorem witness_EncRefusesLongData :
    State.reset.ph = .idle ∧ 251 < (List.replicate 252 (0x00 : Byte)).length := by decide +kernel

/-- The row of write faults under V1E: the fourth write is `Fatal`. -/
theorem witness_EncWriteFaultLeavesPartialFrame :
    ∃ s : State, s.ph = .idle ∧ 3 < (frameBytes 0x00 (sentSeq s) 0x62 [0x00]).length ∧
      s.txAns = oks 3 ++ .fatal :: [] :=
  ⟨{ State.reset with txAns := [.ok, .ok, .ok, .fatal] }, by decide⟩

theorem witness_SendersLeaveTheRest :
    (∃ s t, exec (.enc 0x00 0x62 []) s = .next t) ∧ (∃ s t, exec .resetCmd s = .next t) ∧
      (∃ s t, exec .felicaProbe s = .next t) ∧ (∃ s t, exec (.ledSet 1 2 3) s = .next t) ∧
      ∃ s t, exec .altProbe40 s = .next t :=
  ⟨⟨State.reset, _, rfl⟩, ⟨State.reset, _, rfl⟩, ⟨State.reset, _, rfl⟩, ⟨State.reset, _, rfl⟩,
    ⟨State.reset, _, rfl⟩⟩

theorem witness_DecReturnsEncodedFrame :
    ∃ s : State, s.ph = .idle ∧ (List.replicate 251 (0xD0 : Byte)).length ≤ 251 ∧
      s.rx = arriving (frameBytes 0xE0 0xD0 0x42 (List.replicate 251 0xD0)) ++ [.timeout] :=
  ⟨{ State.reset with
      rx := arriving (frameBytes 0xE0 0xD0 0x42 (List.replicate 251 0xD0)) ++ [.timeout] },
    rfl, by decide +kernel, rfl⟩

/-- V26: `E0 05 00 D0 FF 42 D0 D0 18` behind the noise of V24. -/
theorem witness_DecParsesAnyRawForm :
    ∃ s : State, s.ph = .idle ∧ (0xE0 : Byte) ∉ [(0x11 : Byte), 0xD0] ∧
      (0x05 : Byte).toNat = [(0xD1 : Byte)].length + 4 ∧
      unescape [0x05, 0x00, 0xD0, 0xFF, 0x42, 0xD0, 0xD0, 0x18] =
        some (0x05 :: 0x00 :: 0x00 :: 0x42 :: ([0xD1] ++ [0x18])) ∧
      s.rx =
        arriving ([0x11, 0xD0] ++
          0xE0 :: [0x05, 0x00, 0xD0, 0xFF, 0x42, 0xD0, 0xD0, 0x18]) ++ [.closed] :=
  ⟨{ State.reset with
      rx :=
        arriving [0x11, 0xD0, 0xE0, 0x05, 0x00, 0xD0, 0xFF, 0x42, 0xD0, 0xD0, 0x18] ++ [.closed] },
    by decide, by decide, by decide, by decide, by decide⟩

/-- The other end of the range of lengths: `L = 4`, no data (V28). -/
theorem witness_DecParsesAnyRawForm_noData :
    (0x04 : Byte).toNat = ([] : List Byte).length + 4 ∧
      unescape [0x04, 0x00, 0x00, 0x42, 0x46] =
        some (0x04 :: 0x00 :: 0x00 :: 0x42 :: ([] ++ [0x46])) := by decide

/-- V32: a length of 3 by a pair. -/
theorem witness_DecRefusesShortLength :
    ∃ s : State, s.ph = .idle ∧ (0xE0 : Byte) ∉ ([] : List Byte) ∧ (0x03 : Byte).toNat < 4 ∧
      unescape [0xD0, 0x02] = some [0x03] ∧
      s.rx = arriving ([] ++ 0xE0 :: [0xD0, 0x02]) ++ arriving [0x00, 0x00] :=
  ⟨{ State.reset with rx := arriving [0xE0, 0xD0, 0x02, 0x00, 0x00] }, by decide⟩

theorem witness_DecAdoptsOnlyFromReturnedFrame : ∃ t, exec .dec State.reset = .next t := ⟨_, rfl⟩

theorem witness_ReceiversLeaveTheRest :
    (∃ t, exec .dec State.reset = .next t) ∧ ∃ t, exec .rdb State.reset = .next t :=
  ⟨⟨_, rfl⟩, _, rfl⟩

theorem witness_HuntGoesOnWithoutSync :
    ∃ s : State, s.ph = .idle ∧ (0xE0 : Byte) ∉ [(0xD0 : Byte), 0xDF] ∧
      s.rx = arriving [0xD0, 0xDF] :=
  ⟨{ State.reset with rx := arriving [0xD0, 0xDF] }, by decide⟩

theorem witness_FrameBodyIsBounded :
    ∃ s : State, s.ph = .idle ∧ (0xE0 : Byte) ∉ [(0x11 : Byte)] ∧
      512 ≤ (List.replicate 512 (RxAnswer.byte 0xD0)).length ∧
      s.rx = arriving ([0x11] ++ [0xE0]) ++ List.replicate 512 (.byte 0xD0) :=
  ⟨{ State.reset with rx := arriving [0x11, 0xE0] ++ List.replicate 512 (.byte 0xD0) }, rfl,
    by decide, by decide +kernel, rfl⟩

theorem witness_ReadAnswersBecomeFaults (a : RxAnswer) :
    ∃ s : State, s.resetPin = false ∧ s.ph.receiving = true ∧ s.rx = a :: [] :=
  ⟨{ midFrame with rx := [a] }, rfl, rfl, rfl⟩

/-- The two columns of R213 in which `Closed` differs, and the hunt. -/
theorem witness_ReadAnswersBecomeFaults_contexts :
    (∃ s : State, s.ph.receiving = true ∧ s.escp = false ∧ s.ph ≠ .dHunt) ∧
      (∃ s : State, s.ph.receiving = true ∧ s.ph = .dHunt) ∧
      ∃ s : State, s.ph.receiving = true ∧ s.escp = true ∧ s.ph ≠ .dHunt :=
  ⟨⟨midFrame, by decide⟩, ⟨{ midFrame with ph := .dHunt }, by decide⟩,
    { midFrame with escp := true }, by decide⟩

theorem witness_WriteFatalBecomesFault :
    ∃ s : State, s.resetPin = false ∧ s.ph.transmitting = true ∧ s.txAns = .fatal :: [] :=
  ⟨{ atDelimiter with txAns := [.fatal] }, by decide⟩

/-- The hypothesis of `RdregReadsRegister`, `WrregWritesControlOnly`, `SrstStartsNewSession`,
`ExchangeStopsWithItsRequest` and the idle half of `BusyHostPortTakesNothing`. -/
theorem witness_idle_block : (block 0x09 0x03 0x15).ph = .idle := rfl

theorem witness_BusyHostPortTakesNothing :
    formatOf .srst = .hostop ∧ formatOf .resetCmd = .pseudo ∧ midFrame.ph ≠ .idle := by decide

theorem witness_SymbolsRunInTheirPlace :
    formatOf (.lit 0x6B) = .rxFirst ∧ midFrame.ph.receiving = true ∧
      Instr.lit 0x6B = rxSymbol (midFrame.ph == .dHunt) midFrame.escp 0x6B := by decide

theorem witness_SymbolsRunInTheirPlace_sending :
    formatOf .txsync = .txsym ∧ atDelimiter.ph.transmitting = true ∧
      Instr.txsync = txSymbol (atDelimiter.ph == .eSync) atDelimiter.txLogical := by decide

theorem witness_SymbolsRunInTheirPlace_elsewhere :
    State.reset.ph.receiving = false ∧ State.reset.ph.transmitting = false := by decide

theorem witness_SymbolsWithoutLogicalByte :
    (∃ s : State, s.ph = .dHunt) ∧ (0xD0 : Byte) ≠ 0xE0 ∧ midFrame.ph.inBody = true ∧
      midFrame.escp = false :=
  ⟨⟨{ State.reset with ph := .dHunt }, rfl⟩, by decide, by decide, by decide⟩

/-- A logical byte can be delivered in each phase of a body: 0xE0 as a literal, 0x00 by the pair that
wraps. -/
theorem witness_Delivers (p : Phase) :
    (∃ s : State, s.ph = p ∧ Delivers (.lit 0xE0) 0xE0 s) ∧
      ∃ s : State, s.ph = p ∧ Delivers (.follow 0xFF) 0x00 s :=
  ⟨⟨{ State.reset with ph := p }, rfl, .inl ⟨rfl, by decide, rfl⟩⟩,
    { State.reset with ph := p, escp := true }, rfl, .inr ⟨rfl, rfl⟩⟩

/-- The two sides of the length limit of `DeliveredHeaderByte` and `DeliveredShortLength`. -/
theorem witness_DeliveredLength :
    4 ≤ (0x04 : Byte).toNat ∧ (0x03 : Byte).toNat < 4 ∧
      ∃ s : State, s.ph = .dLen ∧ Delivers (.lit 0x03) 0x03 s ∧ Delivers (.lit 0x04) 0x04 s :=
  ⟨by decide, by decide, { State.reset with ph := .dLen }, rfl, .inl ⟨rfl, by decide, rfl⟩,
    .inl ⟨rfl, by decide, rfl⟩⟩

theorem witness_DeliveredDataByte :
    Delivers (.lit 0x00) 0x00 midFrame ∧ midFrame.ph = .dData ∧
      midFrame.lat.idx.toNat = midFrame.lat.dbuf.length :=
  ⟨.inl ⟨rfl, by decide, rfl⟩, rfl, rfl⟩

/-- The checksum byte of V33, with enforcement on: the one that is right and one that is wrong. -/
theorem witness_DeliveredChecksum :
    ∃ s : State, s.ph = .dChk ∧ s.lat.dbuf.length = s.lat.l.toNat - 4 ∧ s.chkEn = true ∧
      Delivers (.lit 0x47) 0x47 s ∧ (0x47 : Byte) = s.lat.acc ∧ Delivers (.lit 0x00) 0x00 s ∧
      (0x00 : Byte) ≠ s.lat.acc :=
  ⟨{ block 0x44 0x01 0x00 with
      ph := .dChk
      lat := { resetLatches with l := 0x05, c := 0x42, acc := 0x47, idx := 1, dbuf := [0x00] } },
    rfl, rfl, rfl, .inl ⟨rfl, by decide, rfl⟩, rfl, .inl ⟨rfl, by decide, rfl⟩, by decide⟩

theorem witness_DelimiterIsWrittenRaw :
    ∃ s : State, s.ph = .eSync ∧ s.txAns = .ok :: [] :=
  ⟨{ atDelimiter with txAns := [.ok] }, rfl, rfl⟩

/-- Each of the three symbols of R79, in a phase whose byte it is. -/
theorem witness_LogicalByteIsWrittenEscaped :
    (∃ s : State, Writes .txescD0 0xD0 [0xD0, 0xCF] ∧ s.ph.escaping = true ∧
        s.txLogical = 0xD0 ∧ s.txMid = false ∧ s.txAns = oks 2 ++ []) ∧
      (∃ s : State, Writes .txescE0 0xE0 [0xD0, 0xDF] ∧ s.ph.escaping = true ∧
        s.txLogical = 0xE0 ∧ s.txMid = false ∧ s.txAns = oks 2 ++ []) ∧
      ∃ s : State, Writes (.txlit 0xCF) 0xCF [0xCF] ∧ s.ph.escaping = true ∧
        s.txLogical = 0xCF ∧ s.txMid = false ∧ s.txAns = oks 1 ++ [] :=
  ⟨⟨{ State.reset with ph := .bWr, wbuf := 0xD0, txAns := oks 2 }, .inl ⟨rfl, rfl, rfl⟩, rfl, rfl,
      rfl, rfl⟩,
    ⟨{ State.reset with ph := .bWr, wbuf := 0xE0, txAns := oks 2 }, .inr (.inl ⟨rfl, rfl, rfl⟩),
      rfl, rfl, rfl, rfl⟩,
    { State.reset with ph := .bWr, wbuf := 0xCF, txAns := oks 1 },
    .inr (.inr ⟨rfl, by decide, by decide, rfl⟩), rfl, rfl, rfl, rfl⟩

/-- V5: the second write of `WRB 0xE0` is `Fatal`. -/
theorem witness_FaultInsidePairLeavesSentinel :
    ∃ s : State, Writes .txescE0 0xE0 [0xD0, 0xDF] ∧ s.ph.escaping = true ∧ s.txLogical = 0xE0 ∧
      s.txMid = false ∧ s.txAns = .ok :: .fatal :: [] :=
  ⟨{ State.reset with ph := .bWr, wbuf := 0xE0, txAns := [.ok, .fatal] },
    .inr (.inl ⟨rfl, rfl, rfl⟩), rfl, rfl, rfl, rfl⟩

theorem witness_SymbolsLeaveTheRest :
    (∃ t, exec (.lit 0x00) midFrame = .next t) ∧
      (∃ t, exec .txsync { atDelimiter with txAns := [.ok] } = .next t) ∧
      (∃ t, exec .cmdLed { midFrame with ph := .dCmd } = .next t) ∧
      ∃ t, exec (.frame 4 0 0 0 [] 4) { midFrame with ph := .dHunt } = .next t :=
  ⟨⟨_, rfl⟩, ⟨_, rfl⟩, ⟨_, rfl⟩, _, rfl⟩

theorem witness_FrameArrivesWhole :
    ∃ s : State, s.ph = .dHunt ∧ s.escp = false ∧
      (0xFF : Byte).toNat = (List.replicate 251 (0x00 : Byte)).length + 4 :=
  ⟨{ State.reset with ph := .dHunt }, rfl, rfl, by decide +kernel⟩

/-- V17 again: the latches of `atDelimiter`. -/
theorem witness_FrameIsSentWhole :
    ∃ s : State, s.ph = .eSync ∧ s.txMid = false ∧ (0x05 : Byte).toNat = [(0x99 : Byte)].length + 4 ∧
      s.lat.l = 0x05 ∧ s.lat.s = 0x00 ∧ s.lat.q = 0x00 ∧ s.lat.c = 0x42 ∧ s.lat.dbuf = [0x99] ∧
      s.lat.k = 0xE0 ∧
      s.txAns = oks (frameWire 0x05 0x00 0x00 0x42 [0x99] 0xE0).length ++ [] :=
  ⟨{ atDelimiter with txAns := oks 8 }, by decide⟩

theorem witness_CommandByteIsCarried :
    (∃ s : State, s.ph = .dCmd ∧ s.escp = false) ∧
      ∃ s : State, s.ph = .eCmd ∧ s.lat.c = 0x62 ∧ s.txMid = false ∧ s.txAns = .ok :: [] :=
  ⟨⟨{ midFrame with ph := .dCmd }, by decide⟩,
    { State.reset with ph := .eCmd, lat := { resetLatches with c := 0x62 }, txAns := [.ok] },
    by decide⟩

theorem witness_CatalogueSendsItsFrames :
    ∃ s : State, s.ph = .idle ∧
      s.txAns = oks (frameBytes 0x08 (sentSeq s) 0x81 [0x03, 0xE0, 0x10, 0xD0]).length ++ [] :=
  ⟨{ block 0x2A 0x00 0x00 with txAns := oks 12 }, by decide⟩

theorem witness_CatalogueBytesRunAsNamed :
    ∃ s : State, s.resetPin = false ∧ s.ph = .idle ∧ s.exch = false ∧
      s.hostCmd = encode (.ledSet 0x00 0x00 0xFF) ++ [0x60] :=
  ⟨{ State.reset with hostCmd := [0x40, 0x08, 0x81, 0x04, 0x03, 0x00, 0xFF, 0x00, 0x60] },
    by decide⟩

/-- V57. -/
theorem witness_ExchangeSendsThenReceives :
    ∃ s : State, s.ph = .idle ∧
      s.txAns = oks (frameBytes 0x00 (sentSeq s) 0x62 [0x00]).length ++ [] ∧
      (0xE0 : Byte) ∉ ([] : List Byte) ∧ (0x06 : Byte).toNat = [(0x03 : Byte), 0x00].length + 4 ∧
      unescape [0x06, 0x00, 0x00, 0x62, 0x03, 0x00, 0x6B] =
        some (0x06 :: 0x00 :: 0x00 :: 0x62 :: ([0x03, 0x00] ++ [0x6B])) ∧
      s.rx = arriving ([] ++ 0xE0 :: [0x06, 0x00, 0x00, 0x62, 0x03, 0x00, 0x6B]) ++ [] ∧
      (s.chkEn = false ∨ (0x6B : Byte) = chkSum 0x06 0x00 0x00 0x62 [0x03, 0x00]) :=
  ⟨{ State.reset with
      txAns := oks 7, rx := arriving [0xE0, 0x06, 0x00, 0x00, 0x62, 0x03, 0x00, 0x6B] },
    by decide, by decide, by decide, by decide, by decide, by decide, by decide⟩

/-- V59. -/
theorem witness_ExchangeStopsWithItsRequest :
    ∃ s : State, s.ph = .idle ∧ 0 < (frameBytes 0x00 (sentSeq s) 0x62 [0x00]).length ∧
      s.txAns = oks 0 ++ .fatal :: [] :=
  ⟨{ State.reset with txAns := [.fatal] }, by decide⟩

theorem witness_ExchangeLeavesTheRest :
    ∃ s t, exec (.exchange 0x00 0x62 [0x00]) s = .next t := ⟨State.reset, _, rfl⟩

/-- The hypothesis of `ControlHasTwoWriters`, `SequenceHasThreeWriters` and
`StreamsAreNeverTakenBack`. -/
theorem witness_a_step :
    ∃ s t, step s = .next t ∧ t.ctrl ≠ s.ctrl :=
  ⟨{ State.reset with hostCmd := [0xA1, 0x03] }, _, rfl, by decide⟩

theorem witness_OneResponsePerOperation :
    formatOf .dec = .hostop ∧ ∃ t, exec .dec State.reset = .next t := ⟨rfl, _, rfl⟩

theorem witness_WholeOperationIsStepwise :
    (State.reset.ph = .idle ∧ State.reset.resetPin = false) ∧
      ∃ s : State, s.resetPin = false ∧ s.ph.transmitting = true ∧
        (runTx s.txAns s).txMid = false ∧ s.txAns = [.ok, .ok, .fatal] :=
  ⟨by decide, { atDelimiter with txAns := [.ok, .ok, .fatal] }, by decide⟩

end Sys2Proof.Tests
end

/-! PROOFS. The invariant of the machine (O3): what each host operation does to an idle block, ways to meet
the invariant, and that receiving, transmitting and every step keep it. -/

namespace Sys2Proof.Machine

/-! ### What the host operations do -/

theorem decodeOneOperand_eq_ok {mk : Byte → Instr} {bs rest : List Byte} {i : Instr}
    (h : decodeOneOperand mk bs = .ok (i, rest)) : ∃ v, i = mk v := by
  cases bs with
  | nil => cases h
  | cons v vs => cases h; exact ⟨v, rfl⟩

theorem decodeEncOperands_eq_ok {bs rest : List Byte} {i : Instr}
    (h : decodeEncOperands bs = .ok (i, rest)) : ∃ sub cmd data, i = .enc sub cmd data := by
  unfold decodeEncOperands at h
  split at h
  · split at h <;> cases h
    exact ⟨_, _, _, rfl⟩
  · cases h

theorem decodeOperation_hostop {w : Byte} {bs rest : List Byte} {i : Instr}
    (h : decodeOperation w bs = .ok (i, rest)) : formatOf i = .hostop := by
  simp only [decodeOperation, ne_eq, ite_not] at h
  split at h
  · cases h; rfl
  split at h
  · obtain ⟨v, rfl⟩ := decodeOneOperand_eq_ok h; rfl
  split at h
  case isFalse => cases h; rfl
  split at h
  · obtain ⟨v, rfl⟩ := decodeOneOperand_eq_ok h; rfl
  split at h
  · cases h; rfl
  split at h
  · obtain ⟨sub, cmd, data, rfl⟩ := decodeEncOperands_eq_ok h; rfl
  split at h
  · cases h; rfl
  split at h <;> cases h <;> rfl

/-- The host port's decoder yields host operations only (30_encoding R82 to R84, R91). -/
theorem decode_hostop {bs rest : List Byte} {i : Instr} (h : decode bs = .ok (i, rest)) :
    formatOf i = .hostop := by
  cases bs with
  | nil => cases h
  | cons w ws =>
    simp only [decode, ne_eq, ite_not] at h
    split at h
    · exact decodeOperation_hostop h
    · cases h; rfl

/-- What each host operation does to an idle block. -/
inductive HostEffect (s t : State) : Instr → Prop where
  | wrb (v : Byte) (eq : t = s.startWrb v) : HostEffect s t (.wrb v)
  | rdb (eq : t = s.startRdb) : HostEffect s t .rdb
  | enc (sub cmd : Byte) (data : List Byte) (eq : t = s.startEnc sub cmd data) :
      HostEffect s t (.enc sub cmd data)
  | dec (eq : t = s.startDec) : HostEffect s t .dec
  | rdreg (r : BitVec 2) (eq : t = s.readRegister r) : HostEffect s t (.rdreg r)
  | wrreg (r : BitVec 2) (v : Byte) (eq : t = s.writeRegister r v) : HostEffect s t (.wrreg r v)
  | srst (eq : t = s.sessionReset) : HostEffect s t .srst
  | reserved (w : Byte) (eq : t = s.respond (.refused .illegalOp)) : HostEffect s t (.reserved w)

theorem hostEffect_of_exec {i : Instr} {s t : State} (hi : formatOf i = .hostop)
    (h : exec i s = .next t) : HostEffect s t i := by
  cases i with
  | wrb v => exact .wrb v (whenIdle_eq_next.mp h).2
  | rdb => exact .rdb (whenIdle_eq_next.mp h).2
  | enc sub cmd data => exact .enc sub cmd data (whenIdle_eq_next.mp h).2
  | dec => exact .dec (whenIdle_eq_next.mp h).2
  | rdreg r => exact .rdreg r (whenIdle_eq_next.mp h).2
  | wrreg r v => exact .wrreg r v (whenIdle_eq_next.mp h).2
  | srst => exact .srst (whenIdle_eq_next.mp h).2
  | reserved w => exact .reserved w (whenIdle_eq_next.mp h).2
  | _ => cases hi

/-- `RDREG` responds and does nothing else (43_sequence_and_registers R175, R178). -/
theorem readRegister_eq_respond (r : BitVec 2) (s : State) :
    ∃ x : Response, x.Legal ∧ s.readRegister r = s.respond x := by
  unfold State.readRegister
  split
  · next v _ => exact ⟨.byte v, trivial, rfl⟩
  · exact ⟨.refused .illegalReg, trivial, rfl⟩

/-- `WRREG` writes `CTRL` or nothing, and responds (43_sequence_and_registers R176 to R178). -/
theorem writeRegister_cases (r : BitVec 2) (v : Byte) (s : State) :
    (r = 1 ∧ s.writeRegister r v = State.respond .ok { s with ctrl := v &&& ctrlMask }) ∨
      ∃ x : Response, x.Legal ∧ s.writeRegister r v = s.respond x := by
  unfold State.writeRegister State.writeReg
  split
  · exact .inr ⟨.refused .illegalReg, trivial, rfl⟩
  · split
    · next h => exact .inl ⟨h, rfl⟩
    · exact .inr ⟨.ok, trivial, rfl⟩

/-- `ENC` is refused for its length or starts to write (41_frame_encoder R121). -/
theorem startEnc_refused {data : List Byte} (sub cmd : Byte) (s : State)
    (h : Config.maxData < data.length) :
    s.startEnc sub cmd data =
      State.respond (.refused .encodeTooLong)
        { s with status := withCause s.status BlockRefusal.encodeTooLong.code } := by
  simp [State.startEnc, h]

theorem startEnc_admitted {data : List Byte} (sub cmd : Byte) (s : State)
    (h : data.length ≤ Config.maxData) :
    s.startEnc sub cmd data =
      runTx s.txAns
        { s with
          seq := s.encodeSeq, lat := encodeLatches sub s.encodeSeq cmd data, ph := .eSync,
          txMid := false } := by
  simp [State.startEnc, Nat.not_lt.mpr h]

/-! ### The bits of `CTRL` and `STATUS` -/

theorem and_ctrlMask_reserved (v : Byte) : v &&& ctrlMask &&& 0xFC = 0 := by
  simp [ctrlMask, BitVec.and_assoc]

theorem withCause_zero_reserved (status : Byte) : withCause status 0 &&& 0xE0 = 0 := by
  simp [withCause, BitVec.and_assoc]

theorem withCause_code_reserved (status : Byte) (f : BlockFault) :
    withCause status f.code &&& 0xE0 = 0 := by
  revert status
  cases f <;> decide

theorem withCause_tooLong_reserved (status : Byte) :
    withCause status BlockRefusal.encodeTooLong.code &&& 0xE0 = 0 := by
  revert status
  decide

theorem withChkOk_reserved (status : Byte) (good : Bool) :
    withChkOk status good &&& 0xE0 = 0 := by
  revert status
  cases good <;> decide

@[simp] theorem State.finish_cause (r : Response) (s : State) : (s.finish r).cause = 0 := by
  simp [State.cause, withCause, BitVec.and_assoc]

/-- The latched cause is the fault's code (60_exceptions R210). -/
@[simp] theorem State.raiseFault_cause (f : BlockFault) (s : State) :
    (s.raiseFault f).cause = f.code := by
  have code (status : Byte) : withCause status f.code &&& 0x0F = f.code := by
    revert status
    cases f <;> decide
  exact code s.status

/-- Replacing `CHK_OK` keeps `CAUSE` (10_state R25). -/
theorem cause_withChkOk (status : Byte) (good : Bool) :
    withChkOk status good &&& 0x0F = status &&& 0x0F := by
  revert status
  cases good <;> decide

theorem cause_withCause_tooLong (status : Byte) :
    withCause status BlockRefusal.encodeTooLong.code &&& 0x0F = 8 := by
  revert status
  decide

theorem BlockFault.code_le_six (f : BlockFault) : f.code.toNat ≤ 6 := by
  cases f <;> decide

/-! ### Ways to meet the invariant -/

/-- The streams, the host's bytes, the reset input and the counters are no part of the invariant. -/
theorem State.Inv.withPorts {s : State} (h : s.Inv) {cmd : List Byte} {rx : List RxAnswer}
    {ans : List TxAnswer} {tx : List Byte} {pin ex : Bool} {n m k : Nat} :
    State.Inv
      { s with
        hostCmd := cmd, rx := rx, txAns := ans, tx := tx, resetPin := pin, exch := ex,
        rxDrawn := n, txDrawn := m, deadDrawn := k } :=
  ⟨h.ctrlReserved, h.statusReserved, h.causeProduced, h.escpInBody, h.chkOkClearInDec,
    h.midInPair, h.latchesFit, h.responsesLegal⟩

theorem State.Inv.escp_eq_false {s : State} (h : s.Inv) (hp : s.ph.inBody = false) :
    s.escp = false := by
  have := h.escpInBody
  simpa [hp] using this

theorem State.Inv.txMid_eq_false {s : State} (h : s.Inv) (hp : s.ph.escaping = false) :
    s.txMid = false := by
  have := h.midInPair
  simpa [State.txPair, hp] using this

theorem legal_append {s : State} {r : Response} (h : ∀ x ∈ s.hostRsp, x.Legal) (hr : r.Legal) :
    ∀ x ∈ s.hostRsp ++ [r], x.Legal := by
  intro x hx
  rcases List.mem_append.mp hx with hx | hx
  · exact h x hx
  · rw [List.mem_singleton.mp hx]; exact hr

/-- An idle block is sound when its registers are and nothing is pending. -/
theorem State.Inv.of_idle {s : State} (hp : s.ph = .idle) (hc : s.ctrl &&& 0xFC = 0)
    (hs : s.status &&& 0xE0 = 0) (hcause : s.cause.toNat ≤ 6 ∨ s.cause = 8)
    (he : s.escp = false) (hm : s.txMid = false) (hr : ∀ r ∈ s.hostRsp, r.Legal) : s.Inv where
  ctrlReserved := hc
  statusReserved := hs
  causeProduced := hcause
  escpInBody := by simp [he]
  chkOkClearInDec := by simp [hp, Phase.receiving, Phase.inBody]
  midInPair := by simp [hm]
  latchesFit := by simp [State.LatchesFit, hp]
  responsesLegal := hr

theorem inv_finish {s : State} {r : Response} (hc : s.ctrl &&& 0xFC = 0) (he : s.escp = false)
    (hm : s.txMid = false) (hr : ∀ x ∈ s.hostRsp, x.Legal) (hl : r.Legal) : (s.finish r).Inv :=
  .of_idle rfl hc (withCause_zero_reserved s.status) (by simp) he hm (legal_append hr hl)

theorem inv_raiseFault {s : State} (f : BlockFault) (hc : s.ctrl &&& 0xFC = 0)
    (hr : ∀ x ∈ s.hostRsp, x.Legal) : (s.raiseFault f).Inv :=
  .of_idle rfl hc (withCause_code_reserved s.status f) (by simp [f.code_le_six]) rfl rfl
    (legal_append hr trivial)

theorem State.Inv.respond {s : State} {r : Response} (h : s.Inv) (hr : r.Legal) :
    (s.respond r).Inv :=
  ⟨h.ctrlReserved, h.statusReserved, h.causeProduced, h.escpInBody, h.chkOkClearInDec,
    h.midInPair, h.latchesFit, legal_append h.responsesLegal hr⟩

theorem State.Inv.dropLatches {s : State} (h : s.Inv) (hp : s.ph = .idle) : s.dropLatches.Inv :=
  .of_idle hp h.ctrlReserved h.statusReserved h.causeProduced
    (h.escp_eq_false (by rw [hp]; rfl)) (h.txMid_eq_false (by rw [hp]; rfl)) h.responsesLegal

/-! ### Receiving keeps the invariant -/

/-- A `DEC` goes on to another phase, with latches that fit it. -/
theorem State.Inv.decodes {s : State} {lat : Latches} {p : Phase} (h : s.Inv)
    (hs : s.ph.receiving = true) (hr : s.ph ≠ .bRd) (he : s.escp = false)
    (hf : State.LatchesFit { s with lat := lat, ph := p }) :
    State.Inv { s with lat := lat, ph := p } where
  ctrlReserved := h.ctrlReserved
  statusReserved := h.statusReserved
  causeProduced := h.causeProduced
  escpInBody := by simp [he]
  chkOkClearInDec := fun _ _ => h.chkOkClearInDec hs hr
  midInPair := by
    have : s.txMid = false := h.txMid_eq_false (by
      revert hs
      cases s.ph <;> simp [Phase.receiving, Phase.inBody, Phase.escaping])
    simp [this]
  latchesFit := hf
  responsesLegal := h.responsesLegal

/-- `ESCP` may change in a body phase. -/
theorem State.Inv.withEscp {s : State} {e : Bool} (h : s.Inv) (hp : s.ph.inBody = true) :
    State.Inv { s with escp := e } :=
  ⟨h.ctrlReserved, h.statusReserved, h.causeProduced, fun _ => hp, h.chkOkClearInDec,
    h.midInPair, h.latchesFit, h.responsesLegal⟩

theorem takeLength_inv (v : Byte) {s : State} (h : s.Inv) (hp : s.ph = .dLen)
    (he : s.escp = false) : (s.takeLength v).Inv := by
  unfold State.takeLength
  split
  · exact inv_raiseFault _ h.ctrlReserved h.responsesLegal
  · next hv =>
    exact h.decodes (by rw [hp]; rfl) (by simp [hp]) he (Nat.le_of_not_lt hv)

/-- The latches fit the phase that follows the command byte and each data byte (10_state R31). -/
theorem latchesFit_dataPhase {s : State} {n : Nat} (hp : s.ph = dataPhase .dData .dChk n s.dataLen)
    (hr : s.ReceivingData) (hidx : s.lat.idx.toNat = n) (hn : s.lat.dbuf.length = n)
    (hle : n ≤ s.dataLen) : s.LatchesFit := by
  unfold dataPhase at hp
  split at hp
  · next h =>
    simp only [State.LatchesFit, hp]
    exact ⟨hr, hidx.trans hn.symm, hn ▸ h⟩
  · next h =>
    simp only [State.LatchesFit, hp]
    exact ⟨hr, hn.trans (Nat.le_antisymm hle (Nat.le_of_not_lt h))⟩

/-- `ACC` starts with the header, of which no data byte has come yet. -/
theorem takeCommand_inv (v : Byte) {s : State} (h : s.Inv) (hp : s.ph = .dCmd)
    (he : s.escp = false) : (s.takeCommand v).Inv := by
  have hl : Config.overhead ≤ s.lat.l.toNat := by
    simpa [State.LatchesFit, hp] using h.latchesFit
  have hr : (s.takeCommand v).ReceivingData :=
    ⟨hl, by simp [State.takeCommand, headerSum, chkSum, sumBytes]⟩
  exact h.decodes (by rw [hp]; rfl) (by simp [hp]) he
    (latchesFit_dataPhase rfl hr rfl rfl (Nat.zero_le _))

/-- The index of the next data byte does not wrap. -/
theorem toNat_idx_succ {s : State} (h : s.lat.idx.toNat < s.dataLen) :
    (s.lat.idx + 1).toNat = s.lat.idx.toNat + 1 := by
  have := s.lat.l.isLt
  simp only [State.dataLen] at h
  exact Nat.mod_eq_of_lt (by simp; omega)

/-- A data byte joins `DBUF` and `ACC`, and `IDX` stays the number of data bytes. -/
theorem takeData_inv (v : Byte) {s : State} (h : s.Inv) (hp : s.ph = .dData)
    (he : s.escp = false) : (s.takeData v).Inv := by
  obtain ⟨⟨hl, hacc⟩, hidx, hlt⟩ :
      s.ReceivingData ∧ s.lat.idx.toNat = s.lat.dbuf.length ∧ s.lat.dbuf.length < s.dataLen := by
    simpa [State.LatchesFit, hp] using h.latchesFit
  have hr : (s.takeData v).ReceivingData :=
    ⟨hl, by simp [State.takeData, hidx, chkSum_snoc, hacc]⟩
  exact h.decodes (by rw [hp]; rfl) (by simp [hp]) he
    (latchesFit_dataPhase rfl hr (toNat_idx_succ (hidx ▸ hlt)) (by simp [hidx]) (hidx ▸ hlt))

/-- The frame returned has the length and the checksum comparison of its own fields. -/
theorem takeChecksum_inv (k : Byte) {s : State} (h : s.Inv) (hp : s.ph = .dChk)
    (he : s.escp = false) : (s.takeChecksum k).Inv := by
  obtain ⟨⟨hl, hacc⟩, hlen⟩ : s.ReceivingData ∧ s.lat.dbuf.length = s.dataLen := by
    simpa [State.LatchesFit, hp] using h.latchesFit
  unfold State.takeChecksum
  split
  · exact inv_raiseFault _ h.ctrlReserved h.responsesLegal
  · have hlegal : Response.Legal (.frame s.lat.l s.lat.s s.lat.q s.lat.c
        (s.lat.dbuf.take s.dataLen) k (k == s.lat.acc)) := by
      rw [← hlen, List.take_length, hacc]
      refine ⟨?_, rfl⟩
      rw [hlen]
      exact (Nat.sub_add_cancel hl).symm
    have hm : s.txMid = false := h.txMid_eq_false (by rw [hp]; rfl)
    unfold State.returnFrame
    refine State.Inv.dropLatches (inv_finish ?_ ?_ ?_ ?_ ?_) rfl
    · exact h.ctrlReserved
    · exact he
    · exact hm
    · exact h.responsesLegal
    · exact hlegal

theorem takeLogical_inv (v : Byte) {s : State} (h : s.Inv) (he : s.escp = false) :
    (s.takeLogical v).Inv := by
  unfold State.takeLogical
  split
  · next hp =>
    exact inv_finish h.ctrlReserved he (h.txMid_eq_false (by rw [hp]; rfl)) h.responsesLegal trivial
  · next hp => exact takeLength_inv v h hp he
  · next hp =>
    exact h.decodes (by rw [hp]; rfl) (by simp [hp]) he
      (by simpa [State.LatchesFit, hp] using h.latchesFit)
  · next hp =>
    exact h.decodes (by rw [hp]; rfl) (by simp [hp]) he
      (by simpa [State.LatchesFit, hp] using h.latchesFit)
  · next hp => exact takeCommand_inv v h hp he
  · next hp => exact takeData_inv v h hp he
  · next hp => exact takeChecksum_inv v h hp he
  · exact h

theorem takeRaw_inv (b : Byte) {s : State} (h : s.Inv) (hr : s.ph.receiving = true) :
    (s.takeRaw b).Inv := by
  unfold State.takeRaw
  split
  · next hp =>
    unfold State.takeHunt
    split
    · exact h.decodes hr (by simp [hp]) (h.escp_eq_false (by rw [hp]; rfl)) trivial
    · exact h
  · next hp =>
    have hb := inBody_of_receiving hr hp
    unfold State.takeEscaped
    split
    · exact takeLogical_inv _ (h.withEscp hb) rfl
    · next he =>
      split
      · exact h.withEscp hb
      · exact takeLogical_inv b h (by simpa using he)

theorem takeAnswer_inv (a : RxAnswer) {s : State} (h : s.Inv) (hr : s.ph.receiving = true) :
    (s.takeAnswer a).Inv := by
  unfold State.takeAnswer
  split
  · exact takeRaw_inv _ h hr
  · split
    · exact inv_raiseFault _ h.ctrlReserved h.responsesLegal
    · exact h

theorem runRx_inv (as : List RxAnswer) {s : State} (h : s.Inv) : (runRx as s).Inv := by
  induction as generalizing s with
  | nil => exact h.withPorts
  | cons a as ih =>
    unfold runRx
    split
    · next hr => exact ih (takeAnswer_inv a h hr)
    · exact h.withPorts

/-- A `DEC` starts with `CHK_OK` at 0 (42_frame_decoder R140). -/
theorem startDec_inv {s : State} (h : s.Inv) (hp : s.ph = .idle) : s.startDec.Inv := by
  refine runRx_inv _ ⟨h.ctrlReserved, withChkOk_reserved s.status false, ?_, by simp, fun _ _ =>
    chkOk_withChkOk s.status false, ?_, trivial, h.responsesLegal⟩
  · simpa only [State.cause, cause_withChkOk] using h.causeProduced
  · simp [h.txMid_eq_false (by rw [hp]; rfl)]

theorem startRdb_inv {s : State} (h : s.Inv) (hp : s.ph = .idle) : s.startRdb.Inv :=
  runRx_inv _ ⟨h.ctrlReserved, h.statusReserved, h.causeProduced, by simp, by simp,
    by simp [h.txMid_eq_false (by rw [hp]; rfl)], trivial, h.responsesLegal⟩

/-! ### Transmitting keeps the invariant -/

/-- An `ENC` goes on to another phase, with latches that fit it. -/
theorem State.Inv.encodes {s : State} {lat : Latches} {p : Phase} (h : s.Inv)
    (hs : s.ph.transmitting = true) (hp : p.transmitting = true) (hm : s.txMid = false)
    (hf : State.LatchesFit { s with lat := lat, ph := p }) :
    State.Inv { s with lat := lat, ph := p } where
  ctrlReserved := h.ctrlReserved
  statusReserved := h.statusReserved
  causeProduced := h.causeProduced
  escpInBody := by
    have : s.escp = false := h.escp_eq_false (by
      revert hs
      cases s.ph <;> simp [Phase.transmitting, Phase.inBody, Phase.escaping])
    simp [this]
  chkOkClearInDec := by simp [(not_receiving_of_transmitting hp).2]
  midInPair := by simp [hm]
  latchesFit := hf
  responsesLegal := h.responsesLegal

theorem dataPhase_transmitting (n m : Nat) : (dataPhase .eData .eChk n m).transmitting = true := by
  unfold dataPhase
  split <;> rfl

/-- The latches fit the phase that follows the command byte and each data byte of an `ENC`. -/
theorem latchesFit_encodePhase {s : State} {n : Nat}
    (hp : s.ph = dataPhase .eData .eChk n s.dataLen) (hf : s.SendingFrame)
    (hidx : n < s.dataLen → s.lat.idx.toNat = n) : s.LatchesFit := by
  unfold dataPhase at hp
  split at hp
  · next h =>
    have hlen : s.dataLen = s.lat.dbuf.length := Nat.sub_eq_of_eq_add hf.1
    simp only [State.LatchesFit, hp]
    exact ⟨hf, by rw [hidx h, ← hlen]; exact h⟩
  · simp only [State.LatchesFit, hp]
    exact hf

/-- While an `ENC` is in progress the latches hold its frame. -/
theorem State.Inv.sendingFrame {s : State} (h : s.Inv) (hp : s.ph.transmitting = true)
    (hb : s.ph ≠ .bWr) : s.SendingFrame := by
  have hf := h.latchesFit
  unfold State.LatchesFit at hf
  split at hf <;> simp_all [Phase.transmitting, Phase.escaping]

theorem written_inv {s : State} (h : s.Inv) (hm : s.txMid = false) : s.written.Inv := by
  have onward {p : Phase} (hs : s.ph = p) (hp : p.transmitting = true) (hb : p ≠ .bWr) :
      s.ph.transmitting = true ∧ s.SendingFrame := by
    subst hs
    exact ⟨hp, h.sendingFrame hp hb⟩
  have ended (he : s.ph.inBody = false) : (s.finish .ok).Inv :=
    inv_finish h.ctrlReserved (h.escp_eq_false he) hm h.responsesLegal trivial
  unfold State.written
  cases hp : s.ph
  case bWr => exact ended (by rw [hp]; rfl)
  case eChk => exact (ended (by rw [hp]; rfl)).dropLatches rfl
  case eCmd =>
    obtain ⟨ht, hf⟩ := onward hp rfl (by simp)
    exact h.encodes ht (dataPhase_transmitting _ _) hm (latchesFit_encodePhase rfl hf fun _ => rfl)
  case eData =>
    obtain ⟨ht, hf⟩ := onward hp rfl (by simp)
    exact h.encodes ht (dataPhase_transmitting _ _) hm
      (latchesFit_encodePhase rfl hf fun hlt => toNat_idx_succ (Nat.lt_of_succ_lt hlt))
  case eSync | eLen | eSub | eSeq =>
    obtain ⟨ht, hf⟩ := onward hp rfl (by simp)
    exact h.encodes ht rfl hm hf
  all_goals exact h

/-- The sentinel of a pair leaves its follow byte outstanding; any other byte is accepted whole. -/
theorem accepted_inv {s : State} (h : s.Inv) : s.accepted.Inv := by
  unfold State.accepted
  split
  · next hpair =>
    have hpair : s.txPair = true := by simp_all
    exact ⟨h.ctrlReserved, h.statusReserved, h.causeProduced, h.escpInBody, h.chkOkClearInDec,
      fun _ => hpair, h.latchesFit, h.responsesLegal⟩
  · exact written_inv ⟨h.ctrlReserved, h.statusReserved, h.causeProduced, h.escpInBody,
      h.chkOkClearInDec, by simp, h.latchesFit, h.responsesLegal⟩ rfl

theorem takeWrite_inv (a : TxAnswer) {s : State} (h : s.Inv) : (s.takeWrite a).Inv := by
  cases a with
  | ok => exact accepted_inv h
  | fatal => exact inv_raiseFault _ h.ctrlReserved h.responsesLegal

theorem runTx_inv (as : List TxAnswer) {s : State} (h : s.Inv) : (runTx as s).Inv := by
  induction as generalizing s with
  | nil => exact h.withPorts
  | cons a as ih =>
    unfold runTx
    split
    · exact ih (takeWrite_inv a h)
    · exact h.withPorts

theorem rawWrite_inv {s : State} (h : s.Inv) : s.rawWrite.Inv := by
  rcases rawWrite_cases s with ⟨a, as, -, e⟩ | ⟨-, a, e⟩ | ⟨-, e⟩ <;> rw [e]
  · exact takeWrite_inv a h.withPorts
  · exact takeWrite_inv a h.withPorts
  · exact h.withPorts

theorem writeInHand_inv {s : State} (h : s.Inv) : s.writeInHand.Inv := by
  rcases writeInHand_cases s with e | e <;> rw [e]
  · exact rawWrite_inv h
  · exact rawWrite_inv (rawWrite_inv h)

theorem startWrb_inv (v : Byte) {s : State} (h : s.Inv) (hp : s.ph = .idle) :
    (s.startWrb v).Inv :=
  runTx_inv _ ⟨h.ctrlReserved, h.statusReserved, h.causeProduced,
    by simp [h.escp_eq_false (by rw [hp]; rfl)], by simp [Phase.receiving, Phase.inBody], by simp,
    trivial, h.responsesLegal⟩

/-- The latches of an admitted `ENC` hold a frame: its length does not wrap. -/
theorem sendingFrame_encodeLatches {s : State} {sub q cmd : Byte} {data : List Byte}
    (hs : s.lat = encodeLatches sub q cmd data) (hd : data.length ≤ Config.maxData) :
    s.SendingFrame := by
  simp only [State.SendingFrame, hs, encodeLatches]
  refine ⟨?_, by rw [accumulate_eq]; rfl⟩
  simp only [Config.maxData] at hd
  simp only [lengthField, Config.overhead, BitVec.toNat_ofNat]
  omega

theorem startEnc_inv (sub cmd : Byte) (data : List Byte) {s : State} (h : s.Inv)
    (hp : s.ph = .idle) : (s.startEnc sub cmd data).Inv := by
  have he : s.escp = false := h.escp_eq_false (by rw [hp]; rfl)
  have hm : s.txMid = false := h.txMid_eq_false (by rw [hp]; rfl)
  rcases Nat.lt_or_ge Config.maxData data.length with hd | hd
  · rw [startEnc_refused sub cmd s hd]
    exact .of_idle hp h.ctrlReserved (withCause_tooLong_reserved s.status)
      (.inr (cause_withCause_tooLong s.status)) he hm (legal_append h.responsesLegal trivial)
  · rw [startEnc_admitted sub cmd s hd]
    exact runTx_inv _ ⟨h.ctrlReserved, h.statusReserved, h.causeProduced, by simp [he],
      by simp [Phase.receiving, Phase.inBody], by simp, sendingFrame_encodeLatches rfl hd,
      h.responsesLegal⟩

/-! ### Every step keeps the invariant -/

theorem applyReset_inv {s : State} (h : s.Inv) : s.applyReset.Inv :=
  .of_idle rfl (by simp) (by simp) (.inl (by simp [State.cause])) rfl rfl h.responsesLegal

theorem sessionReset_inv {s : State} (h : s.Inv) (hp : s.ph = .idle) : s.sessionReset.Inv :=
  .of_idle rfl h.ctrlReserved (by simp) (.inl (by simp [State.cause])) rfl
    (h.txMid_eq_false (by rw [hp]; rfl)) (legal_append h.responsesLegal trivial)

theorem followUp_inv {s : State} (h : s.Inv) : s.followUp.Inv := by
  rcases followUp_cases s with e | e | ⟨-, hp, -, e⟩ <;> rw [e]
  · exact h
  · exact h.withPorts
  · exact startDec_inv h.withPorts hp

theorem writeRegister_inv (r : BitVec 2) (v : Byte) {s : State} (h : s.Inv) :
    (s.writeRegister r v).Inv := by
  rcases writeRegister_cases r v s with ⟨-, e⟩ | ⟨x, hx, e⟩ <;> rw [e]
  · exact State.Inv.respond ⟨and_ctrlMask_reserved v, h.statusReserved, h.causeProduced,
      h.escpInBody, h.chkOkClearInDec, h.midInPair, h.latchesFit, h.responsesLegal⟩ trivial
  · exact h.respond hx

theorem hostEffect_inv {i : Instr} {s t : State} (he : HostEffect s t i) (h : s.Inv)
    (hp : s.ph = .idle) : t.Inv := by
  cases he with
  | wrb v eq => exact eq ▸ startWrb_inv v h hp
  | rdb eq => exact eq ▸ startRdb_inv h hp
  | enc sub cmd data eq => exact eq ▸ startEnc_inv sub cmd data h hp
  | dec eq => exact eq ▸ startDec_inv h hp
  | rdreg r eq =>
    obtain ⟨x, hx, e⟩ := readRegister_eq_respond r s
    rw [eq, e]
    exact h.respond hx
  | wrreg r v eq => exact eq ▸ writeRegister_inv r v h
  | srst eq => exact eq ▸ sessionReset_inv h hp
  | reserved w eq => exact eq ▸ h.respond trivial

/-- Settles O3: everything a step can do keeps each part of the invariant. -/
theorem stepKeepsSoundState : Obligations.StepKeepsSoundState := by
  intro s t h hstep
  cases step_outcome hstep with
  | reset _ eq => exact eq ▸ applyReset_inv h
  | follows _ _ _ eq => exact eq ▸ followUp_inv h
  | runs _ hp _ i rest dec eq =>
    exact hostEffect_inv (hostEffect_of_exec (decode_hostop dec) eq) h.withPorts hp
  | waits _ _ _ _ _ eq => exact eq ▸ h
  | takes _ hr a as _ eq => exact eq ▸ takeAnswer_inv a h.withPorts hr
  | draws _ hr a _ eq => exact eq ▸ takeAnswer_inv a h.withPorts hr
  | blocks _ _ _ eq => exact eq ▸ h.withPorts
  | writes _ _ eq => exact eq ▸ writeInHand_inv h

end Sys2Proof.Machine

/-! PROOFS. The reset state (O1, O2) and the writers of the registers `CTRL` (O56) and `SEQ` (O57). -/

namespace Sys2Proof.Machine

/-! ### Reset -/

/-- Settles O1. -/
theorem resetRegisterValues : Obligations.ResetRegisterValues :=
  ⟨rfl, rfl, rfl, rfl, rfl, rfl, rfl⟩

/-- Settles O2: the reset state is an idle block with nothing pending and nothing responded. -/
theorem resetStateIsSound : Obligations.ResetStateIsSound :=
  .of_idle rfl (by simp [State.reset]) (by simp [State.reset])
    (.inl (by simp [State.cause, State.reset])) rfl rfl (by simp [State.reset])

/-! ### The registers `CTRL` and `SEQ` -/

/-- No raw write touches `CTRL`, `SEQ` or the reset input. -/
theorem rawWrite_keeps (s : State) :
    s.rawWrite.ctrl = s.ctrl ∧ s.rawWrite.seq = s.seq ∧ s.rawWrite.resetPin = s.resetPin := by
  have answered (a : TxAnswer) (u : State) : (u.takeWrite a).ctrl = u.ctrl ∧
      (u.takeWrite a).seq = u.seq ∧ (u.takeWrite a).resetPin = u.resetPin :=
    ⟨(takeWrite_keeps a u).ctrl, (takeWrite_keeps a u).seq, (takeWrite_keeps a u).resetPin⟩
  rcases rawWrite_cases s with ⟨a, as, -, e⟩ | ⟨-, a, e⟩ | ⟨-, e⟩ <;> rw [e]
  · exact answered a { s with txAns := as }
  · exact answered a { s with txDrawn := s.txDrawn + 1 }
  · exact ⟨rfl, rfl, rfl⟩

theorem writeInHand_keeps (s : State) :
    s.writeInHand.ctrl = s.ctrl ∧ s.writeInHand.seq = s.seq ∧
      s.writeInHand.resetPin = s.resetPin := by
  obtain ⟨hc, hs, hp⟩ := rawWrite_keeps s
  rcases writeInHand_cases s with e | e <;> rw [e]
  · exact ⟨hc, hs, hp⟩
  · obtain ⟨hc', hs', hp'⟩ := rawWrite_keeps s.rawWrite
    exact ⟨hc'.trans hc, hs'.trans hs, hp'.trans hp⟩

theorem startDec_keeps (s : State) : RxKeeps s s.startDec :=
  RxKeeps.trans (by constructor <;> rfl) (runRx_keeps _ _)

theorem startRdb_keeps (s : State) : RxKeeps s s.startRdb :=
  RxKeeps.trans (by constructor <;> rfl) (runRx_keeps _ _)

theorem startEnc_ctrl (sub cmd : Byte) (data : List Byte) (s : State) :
    (s.startEnc sub cmd data).ctrl = s.ctrl := by
  rcases Nat.lt_or_ge Config.maxData data.length with hd | hd
  · rw [startEnc_refused sub cmd s hd]; rfl
  · rw [startEnc_admitted sub cmd s hd]; exact (runTx_keeps _ _).ctrl

theorem followUp_ctrl (s : State) : s.followUp.ctrl = s.ctrl := by
  rcases followUp_cases s with e | e | ⟨-, -, -, e⟩ <;> rw [e]
  exact (startDec_keeps _).ctrl

theorem hostEffect_ctrl {i : Instr} {s t : State} (he : HostEffect s t i) :
    t.ctrl = s.ctrl ∨ ∃ v, i = .wrreg 1 v ∧ t.ctrl = v &&& ctrlMask := by
  cases he with
  | wrb v eq => exact .inl (eq ▸ (runTx_keeps _ _).ctrl)
  | rdb eq => exact .inl (eq ▸ (startRdb_keeps s).ctrl)
  | enc sub cmd data eq => exact .inl (eq ▸ startEnc_ctrl sub cmd data s)
  | dec eq => exact .inl (eq ▸ (startDec_keeps s).ctrl)
  | rdreg r eq =>
    obtain ⟨x, -, e⟩ := readRegister_eq_respond r s
    exact .inl (by rw [eq, e]; rfl)
  | wrreg r v eq =>
    rcases writeRegister_cases r v s with ⟨rfl, e⟩ | ⟨x, -, e⟩
    · exact .inr ⟨v, rfl, by rw [eq, e]; rfl⟩
    · exact .inl (by rw [eq, e]; rfl)
  | srst eq => exact .inl (eq ▸ rfl)
  | reserved w eq => exact .inl (eq ▸ rfl)

/-- Settles O56: of all a step can do, only `WRREG 1` and the reset input reach `CTRL`. -/
theorem controlHasTwoWriters : Obligations.ControlHasTwoWriters := by
  intro s t hstep
  cases step_outcome hstep with
  | reset pin eq => exact .inr (.inl ⟨pin, eq ▸ rfl⟩)
  | follows _ _ _ eq => exact .inl (eq ▸ followUp_ctrl s)
  | runs _ hp _ i rest dec eq =>
    rcases hostEffect_ctrl (hostEffect_of_exec (decode_hostop dec) eq) with h | ⟨v, rfl, h⟩
    · exact .inl h
    · exact .inr (.inr ⟨v, rest, hp, dec, h⟩)
  | waits _ _ _ _ _ eq => exact .inl (eq ▸ rfl)
  | takes _ _ a _ _ eq => exact .inl (eq ▸ (takeAnswer_keeps a _).1.ctrl)
  | draws _ _ a _ eq => exact .inl (eq ▸ (takeAnswer_keeps a _).1.ctrl)
  | blocks _ _ _ eq => exact .inl (eq ▸ rfl)
  | writes _ _ eq => exact .inl (eq ▸ (writeInHand_keeps s).1)

/-- A `DEC` moved `SEQ`: under policy echo a frame with this sequence number was returned
(43_sequence_and_registers R171, R173). -/
def EchoedSeq (s t : State) : Prop :=
  s.seqPolicy = false ∧ ∃ l u c d k good,
    t.hostRsp = s.hostRsp ++ [.frame l u t.seq c d k good]

theorem RxOutcome.seq_cases {s t : State} (h : RxOutcome s t) : t.seq = s.seq ∨ EchoedSeq s t := by
  cases h with
  | goesOn _ _ seq => exact .inl seq
  | faulted _ _ _ seq => exact .inl seq
  | gaveByte _ _ _ seq => exact .inl seq
  | gaveFrame l u q c d k good _ rsp seq =>
    cases hp : s.seqPolicy with
    | true => exact .inl (by simpa [hp] using seq)
    | false =>
      have hq : t.seq = q := by simpa [hp] using seq
      exact .inr ⟨hp, l, u, c, d, k, good, hq ▸ rsp⟩

theorem startDec_seq (s : State) : s.startDec.seq = s.seq ∨ EchoedSeq s s.startDec :=
  (runRx_outcome s.rx { s with status := withChkOk s.status false, ph := .dHunt, escp := false }
    rfl).seq_cases

theorem startRdb_seq (s : State) : s.startRdb.seq = s.seq ∨ EchoedSeq s s.startRdb :=
  (runRx_outcome s.rx { s with ph := .bRd, escp := false } rfl).seq_cases

theorem followUp_seq (s : State) : s.followUp.seq = s.seq ∨ EchoedSeq s s.followUp := by
  rcases followUp_cases s with e | e | ⟨-, -, -, e⟩ <;> rw [e]
  · exact .inl rfl
  · exact .inl rfl
  · exact startDec_seq { s with exch := false }

/-- An `ENC` moves `SEQ` where it is admitted and the policy is increment (41_frame_encoder R121,
R122). -/
theorem startEnc_seq (sub cmd : Byte) (data : List Byte) (s : State) :
    (s.startEnc sub cmd data).seq = s.seq ∨
      (s.seqPolicy = true ∧ (s.startEnc sub cmd data).seq = s.seq + 1 ∧
        data.length ≤ Config.maxData) := by
  rcases Nat.lt_or_ge Config.maxData data.length with hd | hd
  · rw [startEnc_refused sub cmd s hd]
    exact .inl rfl
  · have hs : (s.startEnc sub cmd data).seq = s.encodeSeq := by
      rw [startEnc_admitted sub cmd s hd]
      exact (runTx_keeps _ _).seq
    cases hp : s.seqPolicy with
    | true => exact .inr ⟨rfl, by simp [hs, State.encodeSeq, hp], hd⟩
    | false => exact .inl (by simp [hs, State.encodeSeq, hp])

theorem hostEffect_seq {i : Instr} {s t : State} (he : HostEffect s t i) :
    t.seq = s.seq ∨ EchoedSeq s t ∨
      (s.seqPolicy = true ∧ t.seq = s.seq + 1 ∧
        ∃ sub cmd data, i = .enc sub cmd data ∧ data.length ≤ Config.maxData) ∨
      (i = .srst ∧ t.seq = Config.seqReset) := by
  cases he with
  | wrb v eq => exact .inl (eq ▸ (runTx_keeps _ _).seq)
  | rdb eq => exact eq ▸ (startRdb_seq s).imp_right .inl
  | enc sub cmd data eq =>
    rcases startEnc_seq sub cmd data s with h | ⟨hp, h, hd⟩
    · exact .inl (eq ▸ h)
    · exact .inr (.inr (.inl ⟨hp, eq ▸ h, sub, cmd, data, rfl, hd⟩))
  | dec eq => exact eq ▸ (startDec_seq s).imp_right .inl
  | rdreg r eq =>
    obtain ⟨x, -, e⟩ := readRegister_eq_respond r s
    exact .inl (by rw [eq, e]; rfl)
  | wrreg r v eq =>
    rcases writeRegister_cases r v s with ⟨-, e⟩ | ⟨x, -, e⟩ <;> exact .inl (by rw [eq, e]; rfl)
  | srst eq => exact .inr (.inr (.inr ⟨rfl, eq ▸ rfl⟩))
  | reserved w eq => exact .inl (eq ▸ rfl)

/-- Settles O57: a receiving operation moves `SEQ` only with a returned frame, a transmitting one only
where an `ENC` is admitted. -/
theorem sequenceHasThreeWriters : Obligations.SequenceHasThreeWriters := by
  intro s t hstep
  cases step_outcome hstep with
  | reset pin eq => exact .inr (.inr (.inr ⟨eq ▸ rfl, .inl pin⟩))
  | follows _ _ _ eq => exact eq ▸ (followUp_seq s).imp_right .inl
  | runs _ hp _ i rest dec eq =>
    rcases hostEffect_seq (hostEffect_of_exec (decode_hostop dec) eq) with
      h | h | ⟨hpol, h, sub, cmd, data, rfl, hd⟩ | ⟨rfl, h⟩
    · exact .inl h
    · exact .inr (.inl h)
    · exact .inr (.inr (.inl ⟨hpol, h, hp, sub, cmd, data, rest, dec, hd⟩))
    · exact .inr (.inr (.inr ⟨h, .inr ⟨hp, rest, dec⟩⟩))
  | waits _ _ _ _ _ eq => exact .inl (eq ▸ rfl)
  | takes _ hr a as _ eq =>
    exact eq ▸ (takeAnswer_outcome a { s with rx := as } hr).seq_cases.imp_right .inl
  | draws _ hr a _ eq =>
    exact eq ▸ (takeAnswer_outcome a { s with rxDrawn := s.rxDrawn + 1 } hr).seq_cases.imp_right .inl
  | blocks _ _ _ eq => exact .inl (eq ▸ rfl)
  | writes _ _ eq => exact .inl (eq ▸ (writeInHand_keeps s).2.1)

end Sys2Proof.Machine

/-! PROOFS. The streams (O59), the answers to a `RawRead` that are faults (O31) and the header bytes of a
`DEC` (O40). -/

namespace Sys2Proof.Machine

/-! ### The streams -/

/-- The responses given: none, or one more. -/
def AtMostOneResponse (s t : State) : Prop :=
  t.hostRsp = s.hostRsp ∨ ∃ r, t.hostRsp = s.hostRsp ++ [r]

/-- Bytes are only added to TX_RAW and answers only taken from the front of the queues (20_memory R60). -/
structure StreamsAdvance (s t : State) : Prop where
  tx : s.tx <+: t.tx
  rx : t.rx <:+ s.rx
  txAns : t.txAns <:+ s.txAns

theorem StreamsAdvance.of_eq {s t : State} (tx : t.tx = s.tx) (rx : t.rx = s.rx)
    (txAns : t.txAns = s.txAns) : StreamsAdvance s t :=
  ⟨tx ▸ List.prefix_rfl, rx ▸ List.suffix_rfl, txAns ▸ List.suffix_rfl⟩

theorem StreamsAdvance.trans {s t u : State} (h : StreamsAdvance s t) (g : StreamsAdvance t u) :
    StreamsAdvance s u :=
  ⟨h.tx.trans g.tx, g.rx.trans h.rx, g.txAns.trans h.txAns⟩

theorem RxOutcome.atMostOneResponse {s t : State} (h : RxOutcome s t) : AtMostOneResponse s t := by
  cases h with
  | goesOn _ rsp => exact .inl rsp
  | faulted f _ rsp => exact .inr ⟨.fault f, rsp⟩
  | gaveByte b _ rsp => exact .inr ⟨.byte b, rsp⟩
  | gaveFrame l u q c d k good _ rsp => exact .inr ⟨.frame l u q c d k good, rsp⟩

theorem RxKeeps.streamsAdvance {s t : State} (h : RxKeeps s t) (rx : t.rx <:+ s.rx) :
    StreamsAdvance s t :=
  ⟨h.tx ▸ List.prefix_rfl, rx, h.txAns ▸ List.suffix_rfl⟩

theorem startDec_advances (s : State) :
    StreamsAdvance s s.startDec ∧ AtMostOneResponse s s.startDec :=
  ⟨(startDec_keeps s).streamsAdvance (runRx_rx_suffix _ _),
    (runRx_outcome s.rx { s with status := withChkOk s.status false, ph := .dHunt, escp := false }
      rfl).atMostOneResponse⟩

theorem startRdb_advances (s : State) :
    StreamsAdvance s s.startRdb ∧ AtMostOneResponse s s.startRdb :=
  ⟨(startRdb_keeps s).streamsAdvance (runRx_rx_suffix _ _),
    (runRx_outcome s.rx { s with ph := .bRd, escp := false } rfl).atMostOneResponse⟩

/-- A phase that moves on writes no raw byte, takes no answer, and responds at most once. -/
theorem written_advances (s : State) : StreamsAdvance s s.written ∧ AtMostOneResponse s s.written := by
  unfold State.written
  cases s.ph
  case bWr | eChk => exact ⟨.of_eq rfl rfl rfl, .inr ⟨.ok, rfl⟩⟩
  all_goals exact ⟨.of_eq rfl rfl rfl, .inl rfl⟩

/-- One answer to a `RawWrite` adds at most the byte in hand and one response. -/
theorem takeWrite_advances (a : TxAnswer) (s : State) :
    StreamsAdvance s (s.takeWrite a) ∧ AtMostOneResponse s (s.takeWrite a) := by
  cases a with
  | fatal => exact ⟨.of_eq rfl rfl rfl, .inr ⟨.fault .transportFatal, rfl⟩⟩
  | ok =>
    have sent {m : Bool} : StreamsAdvance s { s with tx := s.tx ++ [s.txRaw], txMid := m } :=
      ⟨List.prefix_append _ _, List.suffix_rfl, List.suffix_rfl⟩
    simp only [State.takeWrite, State.accepted]
    split
    · exact ⟨sent, .inl rfl⟩
    · obtain ⟨hs, hr⟩ := written_advances { s with tx := s.tx ++ [s.txRaw], txMid := false }
      exact ⟨sent.trans hs, hr⟩

theorem rawWrite_advances (s : State) :
    StreamsAdvance s s.rawWrite ∧ AtMostOneResponse s s.rawWrite := by
  rcases rawWrite_cases s with ⟨a, as, hq, e⟩ | ⟨-, a, e⟩ | ⟨-, e⟩ <;> rw [e]
  · obtain ⟨hs, hr⟩ := takeWrite_advances a { s with txAns := as }
    have taken : StreamsAdvance s { s with txAns := as } :=
      ⟨List.prefix_rfl, List.suffix_rfl, hq ▸ List.suffix_cons a as⟩
    exact ⟨taken.trans hs, hr⟩
  · obtain ⟨hs, hr⟩ := takeWrite_advances a { s with txDrawn := s.txDrawn + 1 }
    exact ⟨⟨hs.tx, hs.rx, hs.txAns⟩, hr⟩
  · exact ⟨.of_eq rfl rfl rfl, .inl rfl⟩

theorem written_txMid (s : State) : s.written.txMid = s.txMid := by
  unfold State.written
  split <;> rfl

/-- A write that leaves a follow byte outstanding was the sentinel of a pair: the operation goes on. -/
theorem takeWrite_of_txMid {a : TxAnswer} {s : State} (h : (s.takeWrite a).txMid = true) :
    (s.takeWrite a).hostRsp = s.hostRsp ∧ (s.takeWrite a).ph = s.ph := by
  cases a with
  | fatal => simp [State.takeWrite] at h
  | ok =>
    simp only [State.takeWrite, State.accepted] at h ⊢
    split at h
    · next hc => rw [if_pos hc]; exact ⟨rfl, rfl⟩
    · simp [written_txMid] at h

theorem rawWrite_of_txMid {s : State} (h : s.rawWrite.txMid = true) :
    s.rawWrite.hostRsp = s.hostRsp ∧ s.rawWrite.ph = s.ph := by
  rcases rawWrite_cases s with ⟨a, as, -, e⟩ | ⟨-, a, e⟩ | ⟨-, e⟩ <;> rw [e] at h ⊢
  · exact takeWrite_of_txMid h
  · exact takeWrite_of_txMid h
  · exact ⟨rfl, rfl⟩

/-- The second write of a pair is made only where the first left its follow byte outstanding. -/
theorem writeInHand_of_rawWrite (s : State) :
    s.writeInHand = s.rawWrite ∨
      (s.rawWrite.txMid = true ∧ s.writeInHand = s.rawWrite.rawWrite) := by
  unfold State.writeInHand State.rawWritePair
  split
  · split
    · exact .inl rfl
    · split
      · next hmid => exact .inr ⟨hmid, rfl⟩
      · exact .inl rfl
  · exact .inl rfl

theorem writeInHand_advances (s : State) :
    StreamsAdvance s s.writeInHand ∧ AtMostOneResponse s s.writeInHand := by
  obtain ⟨hs, hr⟩ := rawWrite_advances s
  rcases writeInHand_of_rawWrite s with e | ⟨hmid, e⟩ <;> rw [e]
  · exact ⟨hs, hr⟩
  · obtain ⟨hs', hr'⟩ := rawWrite_advances s.rawWrite
    rw [AtMostOneResponse, (rawWrite_of_txMid hmid).1] at hr'
    exact ⟨hs.trans hs', hr'⟩

theorem runTx_txAns_suffix (as : List TxAnswer) (s : State) : (runTx as s).txAns <:+ as := by
  induction as generalizing s with
  | nil => exact List.suffix_rfl
  | cons a as ih =>
    unfold runTx
    split
    · exact (ih _).trans (List.suffix_cons a as)
    · exact List.suffix_rfl

theorem runTx_advances {s : State} (h : s.Sending) :
    StreamsAdvance s (runTx s.txAns s) ∧ AtMostOneResponse s (runTx s.txAns s) := by
  obtain ⟨sent, htx, -, hr⟩ := runTx_any s.txAns s h
  refine ⟨⟨htx ▸ List.prefix_append _ _, ?_, runTx_txAns_suffix _ _⟩, ?_⟩
  · rw [(runTx_keeps s.txAns s).rx]
  · rcases hr with ⟨-, hr⟩ | ⟨-, hr⟩
    · exact .inl hr
    · exact .inr hr

theorem startWrb_advances (v : Byte) (s : State) :
    StreamsAdvance s (s.startWrb v) ∧ AtMostOneResponse s (s.startWrb v) := by
  obtain ⟨hs, hr⟩ := runTx_advances (sending_startWrb v s).1
  exact ⟨⟨hs.tx, hs.rx, hs.txAns⟩, hr⟩

theorem startEnc_advances (sub cmd : Byte) (data : List Byte) (s : State) :
    StreamsAdvance s (s.startEnc sub cmd data) ∧ AtMostOneResponse s (s.startEnc sub cmd data) := by
  rcases Nat.lt_or_ge Config.maxData data.length with hd | hd
  · rw [startEnc_refused sub cmd s hd]
    exact ⟨.of_eq rfl rfl rfl, .inr ⟨_, rfl⟩⟩
  · rw [startEnc_admitted sub cmd s hd]
    obtain ⟨hs, hr⟩ := runTx_advances (sending_startEnc s sub cmd data hd)
    exact ⟨⟨hs.tx, hs.rx, hs.txAns⟩, hr⟩

theorem respond_advances (r : Response) (s : State) :
    StreamsAdvance s (s.respond r) ∧ AtMostOneResponse s (s.respond r) :=
  ⟨.of_eq rfl rfl rfl, .inr ⟨r, rfl⟩⟩

theorem followUp_advances (s : State) :
    StreamsAdvance s s.followUp ∧ AtMostOneResponse s s.followUp := by
  rcases followUp_cases s with e | e | ⟨-, -, -, e⟩ <;> rw [e]
  · exact ⟨.of_eq rfl rfl rfl, .inl rfl⟩
  · exact ⟨.of_eq rfl rfl rfl, .inl rfl⟩
  · obtain ⟨hs, hr⟩ := startDec_advances { s with exch := false }
    exact ⟨⟨hs.tx, hs.rx, hs.txAns⟩, hr⟩

theorem hostEffect_advances {i : Instr} {s t : State} (he : HostEffect s t i) :
    StreamsAdvance s t ∧ AtMostOneResponse s t := by
  cases he with
  | wrb v eq => exact eq ▸ startWrb_advances v s
  | rdb eq => exact eq ▸ startRdb_advances s
  | enc sub cmd data eq => exact eq ▸ startEnc_advances sub cmd data s
  | dec eq => exact eq ▸ startDec_advances s
  | rdreg r eq =>
    obtain ⟨x, -, e⟩ := readRegister_eq_respond r s
    exact eq ▸ e ▸ respond_advances x s
  | wrreg r v eq =>
    rcases writeRegister_cases r v s with ⟨-, e⟩ | ⟨x, -, e⟩
    · exact eq ▸ e ▸ ⟨.of_eq rfl rfl rfl, .inr ⟨.ok, rfl⟩⟩
    · exact eq ▸ e ▸ respond_advances x s
  | srst eq => exact eq ▸ ⟨.of_eq rfl rfl rfl, .inr ⟨.ok, rfl⟩⟩
  | reserved w eq => exact eq ▸ respond_advances _ s

theorem takeAnswer_advances (a : RxAnswer) {s : State} (h : s.ph.receiving = true) :
    StreamsAdvance s (s.takeAnswer a) ∧ AtMostOneResponse s (s.takeAnswer a) := by
  obtain ⟨hk, hrx⟩ := takeAnswer_keeps a s
  exact ⟨hk.streamsAdvance (hrx ▸ List.suffix_rfl), (takeAnswer_outcome a s h).atMostOneResponse⟩

theorem step_advances {s t : State} (hstep : step s = .next t) :
    StreamsAdvance s t ∧ AtMostOneResponse s t := by
  have still {u : State} (tx : u.tx = s.tx) (rx : u.rx = s.rx) (ans : u.txAns = s.txAns)
      (rsp : u.hostRsp = s.hostRsp) : StreamsAdvance s u ∧ AtMostOneResponse s u :=
    ⟨.of_eq tx rx ans, .inl rsp⟩
  cases step_outcome hstep with
  | reset _ eq => exact eq ▸ still rfl rfl rfl rfl
  | follows _ _ _ eq => exact eq ▸ followUp_advances s
  | runs _ _ _ i rest dec eq =>
    obtain ⟨hs, hr⟩ := hostEffect_advances (hostEffect_of_exec (decode_hostop dec) eq)
    exact ⟨⟨hs.tx, hs.rx, hs.txAns⟩, hr⟩
  | waits _ _ _ _ _ eq => exact eq ▸ still rfl rfl rfl rfl
  | takes _ hp a as hq eq =>
    obtain ⟨hs, hr⟩ := takeAnswer_advances a (s := { s with rx := as }) hp
    have taken : StreamsAdvance s { s with rx := as } :=
      ⟨List.prefix_rfl, hq ▸ List.suffix_cons a as, List.suffix_rfl⟩
    exact eq ▸ ⟨taken.trans hs, hr⟩
  | draws _ hp a _ eq =>
    obtain ⟨hs, hr⟩ := takeAnswer_advances a (s := { s with rxDrawn := s.rxDrawn + 1 }) hp
    exact eq ▸ ⟨⟨hs.tx, hs.rx, hs.txAns⟩, hr⟩
  | blocks _ _ _ eq => exact eq ▸ still rfl rfl rfl rfl
  | writes _ _ eq => exact eq ▸ writeInHand_advances s

/-- Settles O59. -/
theorem streamsAreNeverTakenBack : Obligations.StreamsAreNeverTakenBack := by
  intro s t hstep
  obtain ⟨⟨tx, rx, txAns⟩, rsp⟩ := step_advances hstep
  exact ⟨tx, rx, txAns, rsp⟩

/-! ### A step that takes an answer to a `RawRead` -/

/-- In a receive phase the step takes the next answer (20_memory R52). -/
theorem step_takes_answer {s : State} {a : RxAnswer} {as : List RxAnswer}
    (hpin : s.resetPin = false) (hr : s.ph.receiving = true) (hrx : s.rx = a :: as) :
    step s = .next (State.takeAnswer a { s with rx := as }) := by
  have hidle : s.ph ≠ .idle := by
    intro h
    simp [h, Phase.receiving, Phase.inBody] at hr
  have hraw : s.rawRead = (some a, { s with rx := as }) := by simp [State.rawRead, hrx]
  have hfetch : s.fetch = s.fetchRx := by simp [State.fetch, hpin, hidle, hr]
  unfold step
  rw [hfetch, State.fetchRx, hraw]
  cases a with
  | byte b => exact exec_rxSymbol b { s with rx := as } hr
  | timeout => rfl
  | closed => rfl
  | fatal => rfl

/-- An answer that is no byte is the fault of 60_exceptions R213. -/
theorem takeAnswer_fault {s : State} {a : RxAnswer} {f : BlockFault}
    (h : faultOfAnswer s.readCtx a = some f) : s.takeAnswer a = s.raiseFault f := by
  unfold State.takeAnswer
  split
  · cases h
  · rw [h]

/-- What a step leaves that ends an operation with the fault of an answer. -/
def FaultTaken (s t : State) (as : List RxAnswer) (f : BlockFault) : Prop :=
  EndedWith s t (.fault f) f.code ∧ t.escp = false ∧ t.rx = as ∧ t.seq = s.seq ∧
    t.chkOk = s.chkOk ∧ NothingSent s t

theorem step_read_fault {s : State} {a : RxAnswer} {as : List RxAnswer} {f : BlockFault}
    (hpin : s.resetPin = false) (hr : s.ph.receiving = true) (hrx : s.rx = a :: as)
    (hf : faultOfAnswer s.readCtx a = some f) : ∃ t, step s = .next t ∧ FaultTaken s t as f := by
  have hf' : faultOfAnswer (State.readCtx { s with rx := as }) a = some f := hf
  refine ⟨_, step_takes_answer hpin hr hrx, ?_⟩
  rw [takeAnswer_fault hf']
  exact ⟨⟨rfl, rfl, State.raiseFault_cause f _⟩, rfl, rfl, rfl, raiseFault_chkOk f _,
    rfl, rfl, rfl, rfl, rfl, rfl, rfl⟩

/-- Settles O31: each clause is `step_read_fault` with the fault of the context's row of R213. -/
theorem readAnswersBecomeFaults : Obligations.ReadAnswersBecomeFaults := by
  intro s a as hpin hr hrx
  refine ⟨?_, ?_, ?_, ?_⟩
  · rintro rfl
    exact step_read_fault (f := .timeout) hpin hr hrx (by cases s.readCtx <;> rfl)
  · rintro rfl hctx
    refine step_read_fault (f := .shortRead) hpin hr hrx ?_
    unfold State.readCtx
    rcases hctx with he | hp
    · rw [he]; split <;> rfl
    · rw [if_pos hp]; rfl
  · rintro rfl he hp
    refine step_read_fault (f := .truncatedEscape) hpin hr hrx ?_
    rw [State.readCtx, if_neg hp, if_pos he]
    rfl
  · rintro rfl
    exact step_read_fault (f := .transportFatal) hpin hr hrx (by cases s.readCtx <;> rfl)

/-! ### The header of a `DEC` -/

/-- A symbol that delivers a byte hands it to the phase, with no escape pending after it. -/
theorem exec_delivers {i : Instr} {v : Byte} {s : State} (hd : Delivers i v s)
    (hb : s.ph.inBody = true) :
    exec i s = .next (State.takeLogical v { s with escp := false }) := by
  rcases hd with ⟨rfl, hv, he⟩ | ⟨rfl, he⟩
  · have hs : { s with escp := false } = s := by cases s; simp_all
    rw [hs]
    exact exec_lit_delivers v s hb he hv
  · rw [exec_follow_delivers (v - 1) s hb he, BitVec.sub_add_cancel]

/-- Settles O40. -/
theorem deliveredHeaderByte : Obligations.DeliveredHeaderByte := by
  intro i v s hd
  refine ⟨fun hp hv => ?_, fun hp => ?_, fun hp => ?_, fun hp => ?_⟩
  · rw [exec_delivers hd (by rw [hp]; rfl)]
    have hv : ¬ v.toNat < Config.overhead := Nat.not_lt.mpr hv
    simp [State.takeLogical, hp, State.takeLength, hv]
  · rw [exec_delivers hd (by rw [hp]; rfl)]
    simp [State.takeLogical, hp]
  · rw [exec_delivers hd (by rw [hp]; rfl)]
    simp [State.takeLogical, hp]
  · have htake : State.takeLogical v { s with escp := false } =
        State.takeCommand v { s with escp := false } := by simp [State.takeLogical, hp]
    have hnext : dataPhase .dData .dChk 0 s.dataLen = if 4 < s.lat.l.toNat then .dData else .dChk := by
      simp [dataPhase, State.dataLen, Config.overhead]
    refine ⟨State.takeCommand v { s with escp := false }, ?_, rfl, rfl, rfl, rfl, rfl, hnext, rfl, rfl,
      rfl, rfl, rfl, rfl, rfl, rfl, rfl, rfl, rfl, rfl⟩
    rw [exec_delivers hd (by rw [hp]; rfl), htake]

end Sys2Proof.Machine

/-! PROOFS. A whole operation is what the steps do one wire symbol at a time (O60). -/

namespace Sys2Proof.Machine

/-! ### Runs of the machine -/

theorem run_of_step {s t : State} {o : Result} (h : step s = .next t)
    (hr : ∃ n, Host.Core.run core n t = o) : ∃ n, Host.Core.run core n s = o := by
  obtain ⟨n, hn⟩ := hr
  refine ⟨n + 1, ?_⟩
  have hs : core.step s = .next t := h
  simp only [Host.Core.run, hs]
  exact hn

/-! ### Receiving one symbol at a time -/

/-- The state with other answers standing for the `RawRead`s. -/
def State.withRx (q : List RxAnswer) (s : State) : State := { s with rx := q }

theorem takeLength_withRx (v : Byte) (q : List RxAnswer) (s : State) :
    (s.withRx q).takeLength v = (s.takeLength v).withRx q := by
  simp only [State.takeLength, apply_ite (State.withRx q)]
  rfl

theorem takeChecksum_withRx (k : Byte) (q : List RxAnswer) (s : State) :
    (s.withRx q).takeChecksum k = (s.takeChecksum k).withRx q := by
  simp only [State.takeChecksum, apply_ite (State.withRx q)]
  rfl

theorem takeLogical_withRx (v : Byte) (q : List RxAnswer) (s : State) :
    (s.withRx q).takeLogical v = (s.takeLogical v).withRx q := by
  have hq : (s.withRx q).ph = s.ph := rfl
  cases hp : s.ph
  case dLen => simp only [State.takeLogical, hq, hp, takeLength_withRx]
  case dChk => simp only [State.takeLogical, hq, hp, takeChecksum_withRx]
  all_goals simp only [State.takeLogical, hq, hp] <;> rfl

theorem takeRaw_withRx (b : Byte) (q : List RxAnswer) (s : State) :
    (s.withRx q).takeRaw b = (s.takeRaw b).withRx q := by
  have hunt : (s.withRx q).takeHunt b = (s.takeHunt b).withRx q := by
    simp only [State.takeHunt, apply_ite (State.withRx q)]
    rfl
  have escaped : (s.withRx q).takeEscaped b = (s.takeEscaped b).withRx q := by
    simp only [State.takeEscaped, apply_ite (State.withRx q), ← takeLogical_withRx]
    rfl
  simp only [State.takeRaw, apply_ite (State.withRx q), ← hunt, ← escaped]
  rfl

theorem byte_or_fault (c : ReadCtx) (a : RxAnswer) :
    (∃ b, a = .byte b) ∨ ∃ f, faultOfAnswer c a = some f := by
  cases a with
  | byte b => exact .inl ⟨b, rfl⟩
  | timeout => cases c <;> exact .inr ⟨.timeout, rfl⟩
  | closed => cases c <;> exact .inr ⟨_, rfl⟩
  | fatal => cases c <;> exact .inr ⟨.transportFatal, rfl⟩

/-- What an answer does does not depend on the answers behind it. -/
theorem takeAnswer_withRx (a : RxAnswer) (q : List RxAnswer) (s : State) :
    (s.withRx q).takeAnswer a = (s.takeAnswer a).withRx q := by
  rcases byte_or_fault s.readCtx a with ⟨b, rfl⟩ | ⟨f, hf⟩
  · exact takeRaw_withRx b q s
  · have hf' : faultOfAnswer ((s.withRx q).readCtx) a = some f := hf
    rw [takeAnswer_fault hf, takeAnswer_fault hf']
    rfl

theorem runRx_withRx (as q : List RxAnswer) (s : State) : runRx as (s.withRx q) = runRx as s := by
  induction as generalizing s with
  | nil => rfl
  | cons a as ih =>
    have hp : (s.withRx q).ph = s.ph := rfl
    simp only [runRx, hp, takeAnswer_withRx, ih]
    rfl

/-- A run over the answers present is what the steps do with them, one by one. -/
theorem run_eq_runRx (s : State) (hpin : s.resetPin = false) :
    ∃ n, Host.Core.run core n s = .next (runRx s.rx s) := by
  generalize hq : s.rx = q
  induction q generalizing s with
  | nil => exact ⟨0, by rw [runRx, ← hq]; rfl⟩
  | cons a as ih =>
    cases hr : s.ph.receiving with
    | false => exact ⟨0, by rw [runRx_idle _ _ hr, ← hq]; rfl⟩
    | true =>
      obtain ⟨hk, hrx⟩ := takeAnswer_keeps a (s.withRx as)
      have hrest := ih ((s.withRx as).takeAnswer a) (hk.resetPin.trans hpin) hrx
      rw [runRx_cons _ _ _ hr, ← runRx_withRx as as, ← takeAnswer_withRx]
      exact run_of_step (step_takes_answer hpin hr hq) hrest

/-! ### Transmitting one symbol at a time -/

theorem step_writes {s : State} (hpin : s.resetPin = false) (ht : s.ph.transmitting = true) :
    step s = .next s.writeInHand := by
  obtain ⟨hidle, hr⟩ := not_receiving_of_transmitting ht
  have hfetch : s.fetch = s.fetchTx := by simp [State.fetch, hpin, hidle, hr]
  unfold step
  rw [hfetch, State.fetchTx]
  exact exec_txSymbol s ht

/-- The state with other answers standing for the `RawWrite`s. -/
def State.withTxAns (q : List TxAnswer) (s : State) : State := { s with txAns := q }

theorem written_withTxAns (q : List TxAnswer) (s : State) :
    (s.withTxAns q).written = s.written.withTxAns q := by
  have hq : (s.withTxAns q).ph = s.ph := rfl
  cases hp : s.ph
  all_goals simp only [State.written, hq, hp] <;> rfl

/-- What a write does does not depend on the answers behind it. -/
theorem takeWrite_withTxAns (a : TxAnswer) (q : List TxAnswer) (s : State) :
    (s.withTxAns q).takeWrite a = (s.takeWrite a).withTxAns q := by
  cases a with
  | fatal => rfl
  | ok =>
    simp only [State.takeWrite, State.accepted, apply_ite (State.withTxAns q), ← written_withTxAns]
    rfl

theorem runTx_withTxAns (as q : List TxAnswer) (s : State) :
    runTx as (s.withTxAns q) = runTx as s := by
  induction as generalizing s with
  | nil => rfl
  | cons a as ih =>
    have hp : (s.withTxAns q).ph = s.ph := rfl
    simp only [runTx, hp, takeWrite_withTxAns, ih]
    rfl

/-- One write takes one answer off the run. -/
theorem runTx_rawWrite {s : State} {a : TxAnswer} {as : List TxAnswer}
    (ht : s.ph.transmitting = true) (hq : s.txAns = a :: as) :
    s.rawWrite.txAns = as ∧ runTx as s.rawWrite = runTx s.txAns s := by
  have hw : s.rawWrite = (s.takeWrite a).withTxAns as := by
    rw [← takeWrite_withTxAns]
    simp [State.rawWrite, hq, State.withTxAns]
  rw [hw, runTx_withTxAns, hq, runTx_cons a as s ht]
  exact ⟨rfl, rfl⟩

/-- The writes of the byte in hand take one or two answers off the run, unless the answers end between
the two of a pair. -/
theorem runTx_writeInHand {s : State} (ht : s.ph.transmitting = true) (hne : s.txAns ≠ [])
    (hend : (runTx s.txAns s).txMid = false) :
    s.writeInHand.txAns.length < s.txAns.length ∧
      runTx s.writeInHand.txAns s.writeInHand = runTx s.txAns s := by
  obtain ⟨a, as, hq⟩ := List.exists_cons_of_ne_nil hne
  obtain ⟨has, hrun⟩ := runTx_rawWrite ht hq
  rcases writeInHand_of_rawWrite s with e | ⟨hmid, e⟩ <;> rw [e]
  · rw [has]
    exact ⟨by simp [hq], hrun⟩
  · cases as with
    | nil =>
      rw [← hrun] at hend
      exact absurd (hmid.symm.trans hend) (by simp)
    | cons b bs =>
      have ht' : s.rawWrite.ph.transmitting = true := by rw [(rawWrite_of_txMid hmid).2]; exact ht
      obtain ⟨hbs, hrun'⟩ := runTx_rawWrite ht' has
      rw [hbs, hrun', has, hrun]
      exact ⟨by simp [hq], rfl⟩

/-- A run over the answers present is what the steps do with them, byte by byte. -/
theorem run_eq_runTx (s : State) (hpin : s.resetPin = false)
    (hend : (runTx s.txAns s).txMid = false) :
    ∃ n, Host.Core.run core n s = .next (runTx s.txAns s) := by
  by_cases hgo : s.ph.transmitting = true ∧ s.txAns ≠ []
  · obtain ⟨ht, hne⟩ := hgo
    obtain ⟨hlt, hrun⟩ := runTx_writeInHand ht hne hend
    rw [← hrun] at hend ⊢
    exact run_of_step (step_writes hpin ht)
      (run_eq_runTx s.writeInHand ((writeInHand_keeps s).2.2.trans hpin) hend)
  · have hstop : runTx s.txAns s = s := by
      rw [not_and_or, Bool.not_eq_true, not_not] at hgo
      rcases hgo with ht | hnil
      · exact runTx_idle _ _ ht
      · rw [hnil, runTx, ← hnil]
    exact ⟨0, by rw [hstop]; rfl⟩
termination_by s.txAns.length

/-- Settles O60: exec runs an operation over the answers present, and so do the steps. -/
theorem wholeOperationIsStepwise : Obligations.WholeOperationIsStepwise := by
  refine ⟨fun s hp hpin => ⟨?_, ?_⟩, fun s hpin _ hend => run_eq_runTx s hpin hend⟩
  · have hexec : exec .dec s = .next s.startDec := whenIdle_eq_next.mpr ⟨hp, rfl⟩
    rw [hexec]
    exact run_eq_runRx { s with status := withChkOk s.status false, ph := .dHunt, escp := false } hpin
  · have hexec : exec .rdb s = .next s.startRdb := whenIdle_eq_next.mpr ⟨hp, rfl⟩
    rw [hexec]
    exact run_eq_runRx { s with ph := .bRd, escp := false } hpin

end Sys2Proof.Machine

/-! PROOFS. The answer `Fatal` to a `RawWrite` (O32). -/

namespace Sys2Proof.Machine

theorem rawWrite_fatal {s : State} {as : List TxAnswer} (hq : s.txAns = .fatal :: as) :
    s.rawWrite = (s.withTxAns as).raiseFault .transportFatal := by
  rw [State.rawWrite, hq]
  rfl

/-- `Fatal` leaves no follow byte outstanding, so the second write of a pair is not made. -/
theorem writeInHand_fatal {s : State} {as : List TxAnswer} (hq : s.txAns = .fatal :: as) :
    s.writeInHand = (s.withTxAns as).raiseFault .transportFatal := by
  have hw := rawWrite_fatal hq
  have hmid : s.rawWrite.txMid = false := by rw [hw, State.raiseFault_txMid]
  rcases writeInHand_of_rawWrite s with e | ⟨hmid', -⟩
  · exact e.trans hw
  · exact absurd (hmid.symm.trans hmid') (by simp)

/-- Settles O32: the step writes the byte in hand, and `Fatal` to the first write is the whole of it. -/
theorem writeFatalBecomesFault : Obligations.WriteFatalBecomesFault := by
  intro s as hpin ht hq
  refine ⟨_, step_writes hpin ht, ?_⟩
  rw [writeInHand_fatal hq]
  exact ⟨⟨rfl, rfl, State.raiseFault_cause .transportFatal _⟩, rfl, rfl, rfl, rfl,
    rfl, raiseFault_chkOk .transportFatal _, rfl, rfl, rfl, rfl⟩

end Sys2Proof.Machine

/-! PROOFS. The encodings: what is encoded is decoded and back (O8 to O11). -/

namespace Sys2Proof.Machine

/-! ### The operation words -/

/-- A word is its three fields (30_encoding R82). -/
theorem word_eq_fields (w : Byte) : w = opField w ++ zeroField w ++ regField w := by
  revert w
  decide

/-- A word is decided by its `op` and `r` where `zero = 000`. -/
theorem word_eq_of_fields {w u : Byte} (hw : zeroField w = 0) (hu : zeroField u = 0)
    (ho : opField w = opField u) (hr : regField w = regField u) : w = u := by
  rw [word_eq_fields w, word_eq_fields u, hw, hu, ho, hr]

theorem rdregWord_fields (r : BitVec 2) :
    zeroField (0x80 + r.setWidth 8) = 0 ∧ opField (0x80 + r.setWidth 8) = 4 ∧
      regField (0x80 + r.setWidth 8) = r := by
  revert r
  decide

theorem wrregWord_fields (r : BitVec 2) :
    zeroField (0xA0 + r.setWidth 8) = 0 ∧ opField (0xA0 + r.setWidth 8) = 5 ∧
      regField (0xA0 + r.setWidth 8) = r := by
  revert r
  decide

/-- The three reasons of 30_encoding R91 for which a word names no operation. -/
theorem illegalWord_iff (w : Byte) :
    illegalWord w = true ↔
      opField w = 7 ∨ zeroField w ≠ 0 ∨ (regField w ≠ 0 ∧ opField w ≠ 4 ∧ opField w ≠ 5) := by
  revert w
  decide

theorem decode_of_zero {w : Byte} (hz : zeroField w = 0) (rest : List Byte) :
    decode (w :: rest) = decodeOperation w rest := if_neg (not_not.mpr hz)

theorem decode_of_zero_ne {w : Byte} (hz : zeroField w ≠ 0) (rest : List Byte) :
    decode (w :: rest) = .ok (.reserved w, rest) := if_pos hz

/-- A word that names no operation is read alone (30_encoding R91). -/
theorem decode_of_illegalWord {w : Byte} (h : illegalWord w = true) (rest : List Byte) :
    decode (w :: rest) = .ok (.reserved w, rest) := by
  by_cases hz : zeroField w = 0
  · rw [decode_of_zero hz]
    rcases (illegalWord_iff w).mp h with ho | hz' | ⟨hr, h4, h5⟩
    · simp only [decodeOperation, ho]
      simp
    · exact absurd hz hz'
    · simp only [decodeOperation, if_neg h4, if_neg h5, if_pos hr]
  · exact decode_of_zero_ne hz rest

/-! ### The operands -/

theorem decodeOneOperand_iff {mk : Byte → Instr} {bs rest : List Byte} {i : Instr} :
    decodeOneOperand mk bs = .ok (i, rest) ↔ ∃ v, i = mk v ∧ bs = v :: rest := by
  cases bs with
  | nil => simp [decodeOneOperand]
  | cons v vs => simp [decodeOneOperand, eq_comm]

/-- The operands of `ENC` are `sub`, `cmd`, the count byte and as many data bytes
(30_encoding R83). -/
theorem decodeEncOperands_iff {bs rest : List Byte} {i : Instr} :
    decodeEncOperands bs = .ok (i, rest) ↔
      ∃ sub cmd data, data.length ≤ 255 ∧ i = .enc sub cmd data ∧
        0x40 :: bs = encodeEnc sub cmd data ++ rest := by
  constructor
  · intro h
    unfold decodeEncOperands at h
    split at h
    · next sub cmd n more =>
      split at h
      · next hn =>
        cases h
        have hlen : (more.take n.toNat).length = n.toNat := List.length_take_of_le hn
        refine ⟨sub, cmd, more.take n.toNat, ?_, rfl, ?_⟩
        · have := n.isLt
          omega
        · rw [encodeEnc, hlen]
          simp
      · cases h
    · cases h
  · rintro ⟨sub, cmd, data, hlen, rfl, hbs⟩
    have hn : data.length % 256 = data.length := Nat.mod_eq_of_lt (by omega)
    simp only [encodeEnc, List.cons_append, List.cons.injEq, true_and] at hbs
    rw [hbs]
    simp [decodeEncOperands, hn]

/-! ### The host port -/

/-- Settles O9, row by row: the fields of the word choose the operation, its operands follow. -/
theorem hostOperationsDecodeInStream : Obligations.HostOperationsDecodeInStream := by
  intro i rest hi hw
  cases i with
  | wrb v => rfl
  | rdb => rfl
  | enc sub cmd data =>
    exact decodeEncOperands_iff.mpr ⟨sub, cmd, data, of_decide_eq_true hw, rfl, rfl⟩
  | dec => rfl
  | rdreg r =>
    obtain ⟨hz, ho, hr⟩ := rdregWord_fields r
    rw [encode, List.singleton_append, decode_of_zero hz, decodeOperation, if_pos ho, hr]
  | wrreg r v =>
    obtain ⟨hz, ho, hr⟩ := wrregWord_fields r
    rw [encode, List.cons_append, decode_of_zero hz, decodeOperation, ho, if_neg (by decide),
      if_pos rfl, hr]
    rfl
  | srst => rfl
  | reserved w => exact decode_of_illegalWord hw rest
  | _ => cases hi

/-- What is read behind a word with `zero = 000` is well-formed and encodes to what was read. -/
theorem encode_of_decodeOperation {w : Byte} {bs rest : List Byte} {i : Instr}
    (hz : zeroField w = 0) (h : decodeOperation w bs = .ok (i, rest)) :
    WellFormed i ∧ encode i ++ rest = w :: bs := by
  have word {u : Byte} (hu : zeroField u = 0) (ho : opField w = opField u)
      (hr : regField w = regField u) : u = w := (word_eq_of_fields hz hu ho hr).symm
  simp only [decodeOperation, ne_eq, ite_not] at h
  split at h
  · next ho =>
    cases h
    obtain ⟨hz', ho', hr'⟩ := rdregWord_fields (regField w)
    exact ⟨rfl, by rw [encode, word hz' (ho.trans ho'.symm) hr'.symm]; rfl⟩
  split at h
  · next ho =>
    obtain ⟨v, rfl, rfl⟩ := decodeOneOperand_iff.mp h
    obtain ⟨hz', ho', hr'⟩ := wrregWord_fields (regField w)
    exact ⟨rfl, by rw [encode, word hz' (ho.trans ho'.symm) hr'.symm]; rfl⟩
  split at h
  case isFalse h4 h5 hr =>
    cases h
    exact ⟨(illegalWord_iff w).mpr (.inr (.inr ⟨hr, h4, h5⟩)), rfl⟩
  next hr =>
  split at h
  · next ho =>
    obtain ⟨v, rfl, rfl⟩ := decodeOneOperand_iff.mp h
    exact ⟨rfl, by rw [← word (u := 0x00) rfl ho hr]; rfl⟩
  split at h
  · next ho =>
    cases h
    exact ⟨rfl, by rw [← word (u := 0x20) rfl ho hr]; rfl⟩
  split at h
  · next ho =>
    obtain ⟨sub, cmd, data, hlen, rfl, hbs⟩ := decodeEncOperands_iff.mp h
    exact ⟨decide_eq_true hlen, by rw [← word (u := 0x40) rfl ho hr, hbs]; rfl⟩
  split at h
  · next ho =>
    cases h
    exact ⟨rfl, by rw [← word (u := 0x60) rfl ho hr]; rfl⟩
  split at h
  · next ho =>
    cases h
    exact ⟨rfl, by rw [← word (u := 0xC0) rfl ho hr]; rfl⟩
  · next h4 h5 h0 h1 h2 h3 h6 =>
    cases h
    have h7 : opField w = 7 := by bv_omega
    exact ⟨(illegalWord_iff w).mpr (.inl h7), rfl⟩

/-- Settles O10: the decoder's branches, each with the one word its fields leave. -/
theorem hostBytesHaveOneReading : Obligations.HostBytesHaveOneReading := by
  intro bs i rest h
  refine ⟨decode_hostop h, ?_⟩
  cases bs with
  | nil => cases h
  | cons w ws =>
    by_cases hz : zeroField w = 0
    · rw [decode_of_zero hz] at h
      exact encode_of_decodeOperation hz h
    · rw [decode_of_zero_ne hz] at h
      cases h
      exact ⟨(illegalWord_iff w).mpr (.inr (.inl hz)), rfl⟩

/-- Settles O11, by evaluating the decoders. -/
theorem wordsOfTheSpecDecode : Obligations.WordsOfTheSpecDecode := by
  refine ⟨?_, ?_, ?_, ?_, ?_, ?_, ?_, ?_⟩ <;> decide

/-! ### The other formats -/

/-- A frame is read back from its logical bytes (30_encoding R70, R75). -/
theorem decodeFrame_encode {l : Byte} {d : List Byte} (s q c k : Byte)
    (hl : l.toNat = d.length + Config.overhead) :
    decodeFrame (encode (.frame l s q c d k)) = .ok (.frame l s q c d k, []) := by
  simp [encode, decodeFrame, Config.syncByte, hl]

/-- Bytes with one more behind the data than the count byte says are those of none of the fixed
pseudo-operations (30_encoding R94). -/
theorem decodePseudo_eq_decodeExchange {sub cmd n : Byte} {more : List Byte}
    (h : more.length = n.toNat + 1) :
    decodePseudo (0x40 :: sub :: cmd :: n :: more) = decodeExchange (sub :: cmd :: n :: more) := by
  have counted {sub' cmd' n' : Byte} {more' : List Byte}
      (e : (0x40 : Byte) :: sub :: cmd :: n :: more = 0x40 :: sub' :: cmd' :: n' :: more') :
      more'.length = n'.toNat + 1 := by
    simp only [List.cons.injEq] at e
    obtain ⟨-, -, -, rfl, rfl⟩ := e
    exact h
  unfold decodePseudo
  split
  · next e => exact absurd (counted e) (by decide)
  · next e => exact absurd (counted e) (by decide)
  · next e => exact absurd (counted e) (by decide)
  · next e => exact absurd (counted e) (by simp)
  · next e => rw [(List.cons.inj e).2]
  · next hne => exact absurd rfl (hne _)

theorem decodePseudo_exchange {sub cmd : Byte} {data : List Byte} (h : data.length ≤ 255) :
    decodePseudo (encode (.exchange sub cmd data)) = .ok (.exchange sub cmd data, []) := by
  have hops : decodeEncOperands (sub :: cmd :: BitVec.ofNat 8 data.length :: (data ++ [0x60])) =
      .ok (.enc sub cmd data, [0x60]) :=
    decodeEncOperands_iff.mpr ⟨sub, cmd, data, h, rfl, rfl⟩
  have hn : (data ++ [0x60]).length = (BitVec.ofNat 8 data.length).toNat + 1 := by
    have hmod : data.length % 256 = data.length := Nat.mod_eq_of_lt (by omega)
    rw [List.length_append, BitVec.toNat_ofNat, hmod]
    rfl
  calc decodePseudo (encode (.exchange sub cmd data))
      _ = decodeExchange (sub :: cmd :: BitVec.ofNat 8 data.length :: (data ++ [0x60])) :=
        decodePseudo_eq_decodeExchange hn
      _ = .ok (.exchange sub cmd data, []) := by
        unfold decodeExchange
        rw [hops]
        rfl

/-- Settles O8: the host operations by `hostOperationsDecodeInStream`, the other rows one by one. -/
theorem decodeUndoesEncode : Obligations.DecodeUndoesEncode := by
  intro i hw
  have host (hi : formatOf i = .hostop) : decode (encode i) = .ok (i, []) := by
    simpa using hostOperationsDecodeInStream i [] hi hw
  cases i with
  | skip b =>
    have hb : b ≠ Config.syncByte := by
      simpa [WellFormed, wellFormed] using hw
    simp [formatOf, decodeAs, encode, decodeRx, rxSymbol, hb]
  | lit b =>
    have hb : b ≠ Config.escByte := by simpa [WellFormed, wellFormed] using hw
    simp [formatOf, decodeAs, encode, decodeRx, rxSymbol, hb]
  | txlit b =>
    obtain ⟨hd, hy⟩ : b ≠ Config.escByte ∧ b ≠ Config.syncByte := by
      simpa [WellFormed, wellFormed] using hw
    simp [formatOf, decodeAs, encode, decodeTx, hd, hy]
  | frame l s q c d k =>
    have hl : l.toNat = d.length + Config.overhead := by
      simp only [WellFormed, wellFormed, Bool.and_eq_true, decide_eq_true_eq] at hw
      exact hw.1
    exact decodeFrame_encode s q c k hl
  | exchange sub cmd data =>
    have hd : data.length ≤ Config.maxData := of_decide_eq_true hw
    exact decodePseudo_exchange (hd.trans (by decide))
  | wrb | rdb | enc | dec | rdreg | wrreg | srst | reserved => exact host rfl
  | _ => rfl

end Sys2Proof.Machine

/-! PROOFS. The raw bytes of a frame: where the sync and the sentinel stand (O18) and how many bytes
there are (O19). -/

namespace Sys2Proof.Machine

theorem needsEscape_iff (v : Byte) : needsEscape v = true ↔ v = 0xD0 ∨ v = 0xE0 := by
  simp [needsEscape, Config.escByte, Config.syncByte]

theorem escBytes_of_needsEscape {v : Byte} (h : needsEscape v = true) :
    escBytes v = [0xD0, v - 1] := if_pos h

theorem escBytes_of_not_needsEscape {v : Byte} (h : needsEscape v = false) : escBytes v = [v] := by
  simp [escBytes, h]

/-! ### Where the sync and the sentinel stand -/

theorem sync_not_mem_escBytes (v : Byte) : (0xE0 : Byte) ∉ escBytes v := by
  cases h : needsEscape v with
  | true => rcases (needsEscape_iff v).mp h with rfl | rfl <;> decide
  | false =>
    rw [escBytes_of_not_needsEscape h, List.mem_singleton]
    rintro rfl
    cases h

theorem sync_not_mem_escList (vs : List Byte) : (0xE0 : Byte) ∉ escList vs := by
  induction vs with
  | nil => exact List.not_mem_nil
  | cons v vs ih =>
    rw [escList, List.mem_append]
    exact not_or.mpr ⟨sync_not_mem_escBytes v, ih⟩

/-- Every sentinel in these raw bytes is followed by `CF` or `DF` (30_encoding R95). -/
def SentinelsBeginPairs (raw : List Byte) : Prop :=
  ∀ n : Nat, raw[n]? = some (0xD0 : Byte) →
    raw[n + 1]? = some (0xCF : Byte) ∨ raw[n + 1]? = some (0xDF : Byte)

theorem SentinelsBeginPairs.cons {b : Byte} {raw : List Byte} (hb : b ≠ 0xD0)
    (h : SentinelsBeginPairs raw) : SentinelsBeginPairs (b :: raw)
  | 0, e => absurd (Option.some.inj e) hb
  | n + 1, e => h n e

theorem SentinelsBeginPairs.pair {f : Byte} {raw : List Byte} (hf : f = 0xCF ∨ f = 0xDF)
    (h : SentinelsBeginPairs raw) : SentinelsBeginPairs (0xD0 :: f :: raw)
  | 0, _ => by rcases hf with rfl | rfl <;> simp
  | n + 1, e =>
    SentinelsBeginPairs.cons (by rcases hf with rfl | rfl <;> decide) h n e

theorem sentinelsBeginPairs_escList (vs : List Byte) : SentinelsBeginPairs (escList vs) := by
  induction vs with
  | nil => intro n e; simp [escList] at e
  | cons v vs ih =>
    rw [escList]
    cases h : needsEscape v with
    | true =>
      rw [escBytes_of_needsEscape h]
      exact ih.pair (by rcases (needsEscape_iff v).mp h with rfl | rfl <;> decide)
    | false =>
      rw [escBytes_of_not_needsEscape h]
      refine ih.cons ?_
      rintro rfl
      cases h

/-- Settles O18: the sync is the raw first byte, and all others come out of the escaper. -/
theorem frameHoldsOneRawSync : Obligations.FrameHoldsOneRawSync := by
  intro u q c d
  have hnone := sync_not_mem_escList
    (lengthField d.length :: u :: q :: c :: (d ++ [chkSum (lengthField d.length) u q c d]))
  refine ⟨rfl, ?_, (sentinelsBeginPairs_escList _).cons (by decide)⟩
  rw [frameBytes, frameWire, Config.syncByte, List.count_cons_self, List.count_eq_zero.mpr hnone]

/-! ### How many raw bytes there are -/

theorem length_escBytes (v : Byte) : (escBytes v).length = if needsEscape v then 2 else 1 := by
  unfold escBytes
  split <;> rfl

/-- One raw byte for each logical byte and one more for each that is escaped (30_encoding R74). -/
theorem length_escList (vs : List Byte) :
    (escList vs).length = vs.length + (vs.filter needsEscape).length := by
  induction vs with
  | nil => rfl
  | cons v vs ih =>
    rw [escList, List.length_append, ih, length_escBytes, List.filter_cons]
    split <;> simp only [List.length_cons] <;> omega

/-- An escaped byte adds nothing to a checksum modulo 16. -/
theorem low_of_needsEscape {v : Byte} (h : needsEscape v = true) : v.setWidth 4 = 0 := by
  rcases (needsEscape_iff v).mp h with rfl | rfl <;> rfl

theorem low_sumBytes {d : List Byte} (h : ∀ v ∈ d, needsEscape v = true) :
    (sumBytes d).setWidth 4 = 0 := by
  induction d with
  | nil => rfl
  | cons v vs ih =>
    obtain ⟨hv, hvs⟩ := List.forall_mem_cons.mp h
    rw [sumBytes, BitVec.setWidth_add _ _ (by decide), low_of_needsEscape hv, ih hvs]
    rfl

/-- With length 0xFF and every other byte before the checksum escaped, the checksum is not. -/
theorem chkSum_not_needsEscape {u q c : Byte} {d : List Byte}
    (h : ∀ v ∈ u :: q :: c :: d, needsEscape v = true) :
    needsEscape (chkSum 0xFF u q c d) = false := by
  simp only [List.forall_mem_cons] at h
  obtain ⟨hu, hq, hc, hd⟩ := h
  have hlow : (chkSum 0xFF u q c d).setWidth 4 = 0xF := by
    simp only [chkSum, BitVec.setWidth_add _ _ (show 4 ≤ 8 by decide), low_of_needsEscape hu,
      low_of_needsEscape hq, low_of_needsEscape hc, low_sumBytes hd]
    rfl
  rw [Bool.eq_false_iff]
  intro hk
  rw [low_of_needsEscape hk] at hlow
  cases hlow

/-- The logical bytes of a frame behind its sync (30_encoding R70). -/
def frameBody (u q c : Byte) (d : List Byte) : List Byte :=
  lengthField d.length :: u :: q :: c :: (d ++ [chkSum (lengthField d.length) u q c d])

theorem length_frameBody (u q c : Byte) (d : List Byte) :
    (frameBody u q c d).length = d.length + 5 := by
  simp [frameBody]

theorem length_frameBytes (u q c : Byte) (d : List Byte) :
    (frameBytes u q c d).length =
      1 + (d.length + 5) + ((frameBody u q c d).filter needsEscape).length := by
  rw [← length_frameBody u q c d, Nat.add_assoc, ← length_escList, Nat.add_comm]
  rfl

/-- A frame of the greatest length does not escape its length byte 0xFF, nor all its other bytes. -/
theorem escaped_of_longest {u q c : Byte} {d : List Byte} (h : d.length = 251) :
    ((frameBody u q c d).filter needsEscape).length ≤ 254 := by
  have hl : lengthField d.length = 0xFF := by rw [h]; rfl
  have hbody : frameBody u q c d = 0xFF :: ((u :: q :: c :: d) ++ [chkSum 0xFF u q c d]) := by
    rw [frameBody, hl]
    rfl
  have hle := List.length_filter_le needsEscape (u :: q :: c :: d)
  rw [hbody, List.filter_cons_of_neg (by decide), List.filter_append, List.length_append]
  by_cases hall : ∀ v ∈ u :: q :: c :: d, needsEscape v = true
  · simp only [List.length_cons, h] at hle
    have hk : [chkSum 0xFF u q c d].filter needsEscape = [] := by
      simp only [List.filter, chkSum_not_needsEscape hall]
    rw [hk]
    exact hle
  · have hlt : ((u :: q :: c :: d).filter needsEscape).length ≠ (u :: q :: c :: d).length :=
      fun e => hall (List.length_filter_eq_length_iff.mp e)
    have hk := List.length_filter_le needsEscape [chkSum 0xFF u q c d]
    simp only [List.length_cons, List.length_nil, h] at hle hlt hk ⊢
    omega

theorem length_frameBytes_le {u q c : Byte} {d : List Byte} (h : d.length ≤ 251) :
    (frameBytes u q c d).length ≤ 511 := by
  rw [length_frameBytes]
  rcases Nat.lt_or_eq_of_le h with hlt | heq
  · have hle := List.length_filter_le needsEscape (frameBody u q c d)
    rw [length_frameBody] at hle
    omega
  · have := escaped_of_longest (u := u) (q := q) (c := c) heq
    omega

/-- Settles O19: the least length has no byte escaped, the greatest all that can be. -/
theorem frameRawLength : Obligations.FrameRawLength := by
  refine ⟨fun u q c d hd => ⟨length_frameBytes u q c d, ?_, length_frameBytes_le hd⟩, rfl, ?_⟩
  · rw [length_frameBytes]
    omega
  · decide +kernel

end Sys2Proof.Machine

/-! PROOFS. What the host's words of R91 and of the catalogue do (O12, O52), where the symbols of the
wire run (O37, O6), and the symbols of RX_RAW (O38, O39). -/

namespace Sys2Proof.Machine

/-! ### Operations of the host port -/

/-- An idle block runs the operation presented whole on `HOST_CMD`
(44_serial_protocol_framer R192). -/
theorem step_runs_host {s : State} {i : Instr} {rest : List Byte} (hpin : s.resetPin = false)
    (hp : s.ph = .idle) (hx : s.exch = false) (hd : decode s.hostCmd = .ok (i, rest)) :
    step s = exec i { s with hostCmd := rest } := by
  have hfetch : s.fetch = .run i { s with hostCmd := rest } := by
    simp [State.fetch, State.fetchHost, hpin, hp, hx, hd]
  unfold step
  rw [hfetch]

theorem exec_reserved (w : Byte) {s : State} (hp : s.ph = .idle) :
    exec (.reserved w) s = .next (s.respond (.refused .illegalOp)) :=
  whenIdle_eq_next.mpr ⟨hp, rfl⟩

/-- Settles O12: each of the three reasons of R91 makes the word `reserved`. -/
theorem illegalWordsAreRefused : Obligations.IllegalWordsAreRefused := by
  refine ⟨fun s w rest hpin hp hx hcmd hw => ?_, fun s w hp => exec_reserved w hp⟩
  have hd : decode s.hostCmd = .ok (.reserved w, rest) := by
    rw [hcmd]
    exact decode_of_illegalWord ((illegalWord_iff w).mpr hw) rest
  rw [step_runs_host hpin hp hx hd]
  exact exec_reserved w hp

/-- The host bytes of a pseudo-operation are those of the `ENC` it means, and run as it
(30_encoding R94). -/
theorem step_runs_encBytes {i : Instr} {sub cmd : Byte} {data : List Byte} {s : State}
    {rest : List Byte} (hd : data.length ≤ 255) (hi : encode i = encode (.enc sub cmd data))
    (hrun : ∀ u : State, exec i u = exec (.enc sub cmd data) u) (hpin : s.resetPin = false)
    (hp : s.ph = .idle) (hx : s.exch = false) (hcmd : s.hostCmd = encode i ++ rest) :
    step s = exec i { s with hostCmd := rest } := by
  rw [hrun]
  refine step_runs_host hpin hp hx ?_
  rw [hcmd, hi]
  exact hostOperationsDecodeInStream (.enc sub cmd data) rest rfl (decide_eq_true hd)

/-- Settles O52: each is the `ENC` of 44_serial_protocol_framer R194 to R198. -/
theorem catalogueBytesRunAsNamed : Obligations.CatalogueBytesRunAsNamed := by
  intro i s rest hi hpin hp hx hcmd
  rcases hi with rfl | rfl | ⟨red, green, blue, rfl⟩ | rfl
  · exact step_runs_encBytes (sub := 0x00) (cmd := 0x62) (data := [0x00]) (by decide) rfl
      (fun _ => rfl) hpin hp hx hcmd
  · exact step_runs_encBytes (sub := 0x00) (cmd := 0x42) (data := [0x00]) (by decide) rfl
      (fun _ => rfl) hpin hp hx hcmd
  · exact step_runs_encBytes (sub := 0x08) (cmd := 0x81) (data := [0x03, red, blue, green])
      (Nat.le_of_ble_eq_true rfl) rfl (fun _ => rfl) hpin hp hx hcmd
  · exact step_runs_encBytes (sub := 0x00) (cmd := 0x40) (data := [0x01, 0x03]) (by decide) rfl
      (fun _ => rfl) hpin hp hx hcmd

/-! ### The place of a symbol -/

/-- The state waits for a raw byte of which 30_encoding R78 makes this symbol. -/
def RxPlace (i : Instr) (s : State) : Prop :=
  s.ph.receiving = true ∧ ∃ b, i = rxSymbol (s.ph == .dHunt) s.escp b

/-- The state writes a byte of which 30_encoding R79 makes this symbol. -/
def TxPlace (i : Instr) (s : State) : Prop :=
  s.ph.transmitting = true ∧ i = txSymbol (s.ph == .eSync) s.txLogical

theorem rxPlace_of_hunt {i : Instr} {s : State} (b : Byte) (hp : s.ph = .dHunt)
    (hi : i = rxSymbol true s.escp b) : RxPlace i s :=
  ⟨by rw [hp]; rfl, b, by rw [hi, hp]; rfl⟩

theorem rxPlace_of_body {i : Instr} {s : State} {e : Bool} (b : Byte)
    (hb : s.bodyWith e = true) (hi : i = rxSymbol false e b) : RxPlace i s := by
  obtain ⟨hbody, he⟩ : s.ph.inBody = true ∧ s.escp = e := by simpa [State.bodyWith] using hb
  have hhunt : (s.ph == .dHunt) = false := beq_false_of_ne (inBody_ne_hunt hbody)
  exact ⟨receiving_of_inBody hbody, b, by rw [hi, hhunt, he]⟩

theorem txPlace_of_writing {i : Instr} {v : Byte} {s : State} (hw : s.writing v = true)
    (hi : i = txSymbol false v) : TxPlace i s := by
  obtain ⟨hesc, hv⟩ : s.ph.escaping = true ∧ s.txLogical = v := by
    simpa [State.writing] using hw
  have hsync : (s.ph == .eSync) = false := beq_false_of_ne (escaping_ne_sync hesc)
  exact ⟨by simp [Phase.transmitting, hesc], by rw [hi, hsync, hv]⟩

theorem inContext_cases (here : Bool) (op : State → State) (s : State) :
    (here = true ∧ inContext here op s = .next (op s)) ∨
      inContext here op s = .fault .symbolOutOfContext := by
  cases here
  · exact .inr rfl
  · exact .inl ⟨rfl, rfl⟩

/-- A symbol of RX_RAW is in its place, or it is the fault of log 9. -/
theorem exec_rx_cases {i : Instr} (s : State)
    (hi : formatOf i = .rxHunt ∨ formatOf i = .rxFirst ∨ formatOf i = .rxFollow) :
    RxPlace i s ∨ exec i s = .fault .symbolOutOfContext := by
  cases i with
  | sync =>
    refine (inContext_cases _ _ s).imp_left fun ⟨hc, _⟩ => ?_
    exact rxPlace_of_hunt Config.syncByte (eq_of_beq hc) (by simp [rxSymbol])
  | skip b =>
    refine (inContext_cases _ _ s).imp_left fun ⟨hc, _⟩ => ?_
    obtain ⟨hp, hb⟩ : s.ph = .dHunt ∧ b ≠ Config.syncByte := by simpa using hc
    exact rxPlace_of_hunt b hp (by simp [rxSymbol, hb])
  | esc =>
    refine (inContext_cases _ _ s).imp_left fun ⟨hc, _⟩ => ?_
    exact rxPlace_of_body Config.escByte hc (by simp [rxSymbol])
  | lit b =>
    refine (inContext_cases _ _ s).imp_left fun ⟨hc, _⟩ => ?_
    obtain ⟨hbody, hb⟩ : s.bodyWith false = true ∧ b ≠ Config.escByte := by simpa using hc
    exact rxPlace_of_body b hbody (by simp [rxSymbol, hb])
  | follow b =>
    refine (inContext_cases _ _ s).imp_left fun ⟨hc, _⟩ => ?_
    exact rxPlace_of_body b hc rfl
  | _ => simp [formatOf] at hi

/-- A symbol of TX_RAW is in its place, or it is the fault of log 9. -/
theorem exec_tx_cases {i : Instr} (s : State) (hi : formatOf i = .txsym) :
    TxPlace i s ∨ exec i s = .fault .symbolOutOfContext := by
  cases i with
  | txsync =>
    refine (inContext_cases _ _ s).imp_left fun ⟨hc, _⟩ => ?_
    exact ⟨by rw [eq_of_beq hc]; rfl, by rw [hc]; rfl⟩
  | txescD0 =>
    refine (inContext_cases _ _ s).imp_left fun ⟨hc, _⟩ => ?_
    exact txPlace_of_writing hc rfl
  | txescE0 =>
    refine (inContext_cases _ _ s).imp_left fun ⟨hc, _⟩ => ?_
    exact txPlace_of_writing hc rfl
  | txlit b =>
    refine (inContext_cases _ _ s).imp_left fun ⟨hc, _⟩ => ?_
    obtain ⟨hw, hd, hy⟩ : s.writing b = true ∧ b ≠ Config.escByte ∧ b ≠ Config.syncByte := by
      simpa [needsEscape] using hc
    exact txPlace_of_writing hw (by simp [txSymbol, hd, hy])
  | _ => cases hi

/-- In its place a symbol of RX_RAW takes its raw byte. -/
theorem RxPlace.exec_eq {i : Instr} {s : State} (h : RxPlace i s) :
    ∃ b, exec i s = .next (s.takeRaw b) := by
  obtain ⟨hr, b, rfl⟩ := h
  exact ⟨b, exec_rxSymbol b s hr⟩

/-- In its place a symbol of TX_RAW writes the byte in hand. -/
theorem TxPlace.exec_eq {i : Instr} {s : State} (h : TxPlace i s) :
    exec i s = .next s.writeInHand := by
  obtain ⟨ht, rfl⟩ := h
  exact exec_txSymbol s ht

/-- Settles O37: in its place a symbol runs, and out of it nothing but the fault is left. -/
theorem symbolsRunInTheirPlace : Obligations.SymbolsRunInTheirPlace := by
  intro i s
  refine ⟨fun hi => ⟨fun h => ?_, fun h => (exec_rx_cases s hi).resolve_left h⟩,
    fun hi => ⟨fun h => ⟨_, TxPlace.exec_eq h⟩, fun h => (exec_tx_cases s hi).resolve_left h⟩⟩
  obtain ⟨b, hb⟩ := RxPlace.exec_eq h
  exact ⟨_, hb⟩

/-! ### A step in an operation -/

theorem fetch_receiving {s : State} (hpin : s.resetPin = false) (hr : s.ph.receiving = true) :
    s.fetch = s.fetchRx := by
  have hidle : s.ph ≠ .idle := by
    intro h
    simp [h, Phase.receiving, Phase.inBody] at hr
  simp [State.fetch, hpin, hidle, hr]

/-- A step takes the answer its `RawRead` gets, from the queue or drawn. -/
theorem step_of_rawRead {s u : State} {a : RxAnswer} (hpin : s.resetPin = false)
    (hr : s.ph.receiving = true) (hu : u.ph.receiving = true) (hraw : s.rawRead = (some a, u)) :
    step s = .next (u.takeAnswer a) := by
  unfold step
  rw [fetch_receiving hpin hr, State.fetchRx, hraw]
  cases a with
  | byte b => exact exec_rxSymbol b u hu
  | timeout => rfl
  | closed => rfl
  | fatal => rfl

theorem step_of_rawRead_none {s u : State} (hpin : s.resetPin = false)
    (hr : s.ph.receiving = true) (hraw : s.rawRead = (none, u)) : step s = .next u := by
  unfold step
  rw [fetch_receiving hpin hr, State.fetchRx, hraw]

/-- A free answer to a `RawRead` acts as if it had stood in the queue (20_memory R52, R53). -/
theorem step_draws_rx {s : State} (hpin : s.resetPin = false) (hr : s.ph.receiving = true)
    (hrx : s.rx = []) :
    step s =
      match Config.rxAnswer s.rxDrawn with
      | some a => step { s with rx := [a], rxDrawn := s.rxDrawn + 1 }
      | none => .next { s with rxDrawn := s.rxDrawn + 1 } := by
  have hraw : s.rawRead = (Config.rxAnswer s.rxDrawn, { s with rxDrawn := s.rxDrawn + 1 }) := by
    simp [State.rawRead, hrx]
  have hempty : { s with rx := [], rxDrawn := s.rxDrawn + 1 } =
      { s with rxDrawn := s.rxDrawn + 1 } := by rw [← hrx]
  cases ha : Config.rxAnswer s.rxDrawn with
  | none => exact step_of_rawRead_none hpin hr (ha ▸ hraw)
  | some a =>
    have hqueued : step { s with rx := [a], rxDrawn := s.rxDrawn + 1 } =
        .next (State.takeAnswer a { s with rx := [], rxDrawn := s.rxDrawn + 1 }) :=
      step_takes_answer hpin hr rfl
    rw [hempty] at hqueued
    exact (step_of_rawRead (u := { s with rxDrawn := s.rxDrawn + 1 }) hpin hr hr
      (ha ▸ hraw)).trans hqueued.symm

theorem writeInHand_congr {s u : State} (hpair : u.txPair = s.txPair) (hmid : u.txMid = s.txMid)
    (hraw : u.rawWrite = s.rawWrite) : u.writeInHand = s.writeInHand := by
  simp only [State.writeInHand, State.rawWritePair, hpair, hmid, hraw]

/-- A write that is not answered yet is all that is made of a pair. -/
theorem writeInHand_of_waiting {s : State} {n : Nat} (h : s.rawWrite = { s with txDrawn := n }) :
    s.writeInHand = { s with txDrawn := n } := by
  unfold State.writeInHand State.rawWritePair
  rw [h]
  cases s.txMid <;> simp

/-- A free answer to a `RawWrite` acts as if it had stood in the queue (20_memory R54). -/
theorem writeInHand_draws {s : State} (hq : s.txAns = []) :
    s.writeInHand =
      match Config.txAnswer s.txDrawn with
      | some a => State.writeInHand { s with txAns := [a], txDrawn := s.txDrawn + 1 }
      | none => { s with txDrawn := s.txDrawn + 1 } := by
  have hempty : { s with txAns := [], txDrawn := s.txDrawn + 1 } =
      { s with txDrawn := s.txDrawn + 1 } := by rw [← hq]
  cases ha : Config.txAnswer s.txDrawn with
  | none => exact writeInHand_of_waiting (by simp only [State.rawWrite, hq, ha])
  | some a =>
    refine (writeInHand_congr (s := s) (u := { s with txAns := [a], txDrawn := s.txDrawn + 1 })
      rfl rfl ?_).symm
    simp only [State.rawWrite, hq, ha, hempty]

/-- Settles O6: queued or drawn, an answer is taken by the same step. -/
theorem stepRunsWireSymbol : Obligations.StepRunsWireSymbol := by
  intro s hpin
  refine ⟨fun b as hr hrx => ?_, fun ht => ?_, step_draws_rx hpin, fun ht hq => ?_⟩
  · exact (step_takes_answer hpin hr hrx).trans (exec_rxSymbol b { s with rx := as } hr).symm
  · exact (step_writes hpin ht).trans (exec_txSymbol s ht).symm
  · rw [step_writes hpin ht, writeInHand_draws hq]
    cases Config.txAnswer s.txDrawn with
    | none => rfl
    | some a =>
      exact (step_writes (s := { s with txAns := [a], txDrawn := s.txDrawn + 1 }) hpin ht).symm

/-! ### The symbols of RX_RAW -/

/-- Settles O38, by running the three symbols. -/
theorem symbolsWithoutLogicalByte : Obligations.SymbolsWithoutLogicalByte := by
  intro s
  refine ⟨fun hp => ⟨?_, fun b hb => ?_⟩, fun hb he => ?_⟩
  · simp [exec, execSync, inContext, hp, State.takeRaw, State.takeHunt]
  · have hb : b ≠ Config.syncByte := hb
    simp [exec, execSkip, inContext, hp, hb, State.takeRaw, State.takeHunt]
  · simp [exec, execEsc, inContext, State.bodyWith, hb, he, State.takeRaw, inBody_ne_hunt hb,
      State.takeEscaped]

/-- Settles O39: the byte handed to `B_RD` is the operation's response. -/
theorem deliveredByteEndsRdb : Obligations.DeliveredByteEndsRdb := by
  intro i v s hp hd
  have htake : State.takeLogical v { s with escp := false } =
      State.finish (.byte v) { s with escp := false } := by simp [State.takeLogical, hp]
  refine ⟨_, (exec_delivers hd (by rw [hp]; rfl)).trans (congrArg _ htake), ?_⟩
  exact ⟨⟨rfl, rfl, State.finish_cause _ _⟩, rfl, rfl, finish_chkOk _ _, rfl, rfl,
    rfl, rfl, rfl, rfl, rfl, rfl, rfl⟩

end Sys2Proof.Machine

/-! PROOFS. The symbols of TX_RAW (O44, O45) and the command codes (O50). -/

namespace Sys2Proof.Machine

/-! ### A byte written whole -/

theorem rawWrite_ok {s : State} {as : List TxAnswer} (hq : s.txAns = .ok :: as) :
    s.rawWrite = (s.withTxAns as).accepted := by
  rw [State.rawWrite, hq]
  rfl

/-- A byte that is no pair goes out by one acceptance. -/
theorem writeInHand_single {s : State} {as : List TxAnswer} (h : s.txPair = false)
    (hq : s.txAns = .ok :: as) :
    s.writeInHand =
      State.written { s with tx := s.tx ++ [s.txLogical], txAns := as, txMid := false } := by
  have hpair : (s.withTxAns as).txPair = false := h
  rw [State.writeInHand, h]
  show s.rawWrite = _
  rw [rawWrite_ok hq]
  simp only [State.accepted, State.txRaw, hpair]
  rfl

theorem accepted_sentinel {s : State} (h : s.txPair = true) (hm : s.txMid = false) :
    s.accepted = { s with tx := s.tx ++ [Config.escByte], txMid := true } := by
  simp [State.accepted, State.txRaw, h, hm]

theorem accepted_follow {s : State} (h : s.txPair = true) (hm : s.txMid = true) :
    s.accepted = State.written { s with tx := s.tx ++ [s.txLogical - 1], txMid := false } := by
  simp [State.accepted, State.txRaw, h, hm]

/-- The raw bytes of the byte in hand: the delimiter as itself, any other through the escaper
(30_encoding R73, R79). -/
def State.bytesInHand (s : State) : List Byte :=
  if s.txPair then [Config.escByte, s.txLogical - 1] else [s.txLogical]

theorem bytesInHand_of_escaping {s : State} (h : s.ph.escaping = true) :
    s.bytesInHand = escBytes s.txLogical := by
  simp [State.bytesInHand, State.txPair, h, escBytes]

/-- With its raw bytes accepted, the byte in hand goes out whole and the phase moves on. -/
theorem writeInHand_accepted {s : State} {as : List TxAnswer} (hm : s.txMid = false)
    (hq : s.txAns = oks s.bytesInHand.length ++ as) :
    s.writeInHand =
      State.written { s with tx := s.tx ++ s.bytesInHand, txAns := as, txMid := false } := by
  unfold State.bytesInHand at hq ⊢
  cases hpair : s.txPair with
  | false =>
    exact writeInHand_single hpair (by rw [hq, hpair]; rfl)
  | true =>
    have hfirst := rawWrite_ok (s := s) (as := .ok :: as) (by rw [hq, hpair]; rfl)
    rw [accepted_sentinel (s := s.withTxAns (.ok :: as)) hpair hm] at hfirst
    have hboth : s.writeInHand = s.rawWrite.rawWrite := by
      simp [State.writeInHand, State.rawWritePair, hpair, hm, hfirst]
    rw [hboth, hfirst, rawWrite_ok (as := as) rfl, accepted_follow (by exact hpair) rfl]
    simp only [if_true, State.withTxAns, List.append_assoc]
    rfl

/-! ### The phase moves on -/

theorem written_tx (s : State) : s.written.tx = s.tx := by
  unfold State.written
  split <;> rfl

theorem written_txAns (s : State) : s.written.txAns = s.txAns := by
  unfold State.written
  split <;> rfl

/-- The order of the transmit phases (10_state R31). -/
theorem written_ph {s : State} (h : s.ph.transmitting = true) :
    s.written.ph = phaseAfterWriting s := by
  unfold State.written phaseAfterWriting
  cases hp : s.ph
  case bWr | eSync | eLen | eSub | eSeq | eData | eChk => rfl
  case eCmd => simp [dataPhase, State.dataLen, Config.overhead]
  all_goals simp [hp, Phase.transmitting, Phase.escaping] at h

/-- After the last phase the operation ends with `Ok`, and before it there is no response. -/
theorem written_ends {s : State} (h : s.ph.transmitting = true) :
    (s.written.ph = .idle ∧ EndedWith s s.written .ok 0) ∨
      (s.written.ph ≠ .idle ∧ s.written.hostRsp = s.hostRsp ∧ s.written.status = s.status) := by
  have hdata (n m : Nat) : dataPhase .eData .eChk n m ≠ .idle := by
    unfold dataPhase
    split <;> simp
  unfold State.written
  cases hp : s.ph
  case bWr | eChk => exact .inl ⟨rfl, rfl, rfl, State.finish_cause .ok s⟩
  case eSync | eLen | eSub | eSeq => exact .inr ⟨by simp, rfl, rfl⟩
  case eCmd | eData => exact .inr ⟨hdata _ _, rfl, rfl⟩
  all_goals simp [hp, Phase.transmitting, Phase.escaping] at h

theorem TxKeeps.nothingReceived {s t : State} (h : TxKeeps s t) : NothingReceived s t :=
  ⟨h.ctrl, h.chkOk, h.rx, h.rxDrawn, h.hostCmd, h.resetPin⟩

/-! ### The symbols of TX_RAW -/

/-- Settles O44: the delimiter is no pair, so one acceptance is the whole write. -/
theorem delimiterIsWrittenRaw : Obligations.DelimiterIsWrittenRaw := by
  intro s as hp hq
  have hplace : TxPlace .txsync s := ⟨by rw [hp]; rfl, by rw [hp]; rfl⟩
  have hpair : s.txPair = false := by simp [State.txPair, hp, Phase.escaping]
  have hlog : s.txLogical = 0xE0 := by simp [State.txLogical, hp, Config.syncByte]
  rw [hplace.exec_eq, writeInHand_single hpair hq, hlog]
  simp only [State.written, hp]

/-- A symbol that writes `v` is the one of 30_encoding R79 for it, with the bytes of the escaper. -/
theorem Writes.eq_txSymbol {i : Instr} {v : Byte} {raw : List Byte} (h : Writes i v raw) :
    i = txSymbol false v ∧ raw = escBytes v := by
  rcases h with ⟨rfl, rfl, rfl⟩ | ⟨rfl, rfl, rfl⟩ | ⟨rfl, hd, hy, rfl⟩
  · exact ⟨rfl, rfl⟩
  · exact ⟨rfl, rfl⟩
  · have hd : v ≠ Config.escByte := hd
    have hy : v ≠ Config.syncByte := hy
    simp [txSymbol, escBytes, needsEscape, hd, hy]

/-- Settles O45: the symbol writes the byte in hand whole, and then the phase moves on. -/
theorem logicalByteIsWrittenEscaped : Obligations.LogicalByteIsWrittenEscaped := by
  intro i v raw s as hw hesc hv hm hq
  obtain ⟨rfl, rfl⟩ := hw.eq_txSymbol
  have ht : s.ph.transmitting = true := by simp [Phase.transmitting, hesc]
  have hbytes : s.bytesInHand = escBytes v := by rw [bytesInHand_of_escaping hesc, hv]
  have hplace : TxPlace (txSymbol false v) s :=
    txPlace_of_writing (by simp [State.writing, hesc, hv]) rfl
  have hwrite := writeInHand_accepted (as := as) hm (by rw [hbytes]; exact hq)
  rw [hbytes] at hwrite
  refine ⟨_, hwrite ▸ hplace.exec_eq, ?_⟩
  set u : State := { s with tx := s.tx ++ escBytes v, txAns := as, txMid := false } with hu
  have hut : u.ph.transmitting = true := ht
  have hkeep : TxKeeps s u.written := TxKeeps.trans (by constructor <;> rfl) (written_keeps u)
  refine ⟨written_tx u, written_txAns u, written_txMid u, written_ph hut, ?_, ?_, hkeep.seq,
    hkeep.nothingReceived⟩
  · intro hidle
    rcases written_ends hut with ⟨-, hend⟩ | ⟨hne, -⟩
    · exact hend
    · exact absurd hidle hne
  · intro hbusy
    rcases written_ends hut with ⟨hp, -⟩ | ⟨-, hgo⟩
    · exact absurd hp hbusy
    · exact hgo

/-! ### The command codes -/

/-- A command code taken in `D_CMD` is the literal of its value (30_encoding R80, 00_scope R7). -/
theorem carryCommand_received {code : Byte} {s : State} (hp : s.ph = .dCmd) (he : s.escp = false)
    (hc : code ≠ 0xD0) : carryCommand code s = exec (.lit code) s := by
  have hc : code ≠ Config.escByte := hc
  simp [carryCommand, exec, execLit, inContext, State.bodyWith, Phase.inBody, hp, he, hc]

/-- A command code written in `E_CMD` is the literal of its value. -/
theorem carryCommand_sent {code : Byte} {s : State} (hp : s.ph = .eCmd) (hl : s.lat.c = code)
    (hd : code ≠ 0xD0) (hy : code ≠ 0xE0) : carryCommand code s = exec (.txlit code) s := by
  have hd : code ≠ Config.escByte := hd
  have hy : code ≠ Config.syncByte := hy
  simp [carryCommand, exec, execTxlit, inContext, State.writing, Phase.escaping, State.txLogical,
    needsEscape, hp, hl, hd, hy]

/-- Settles O50: a command code is a literal in either direction, so O40 and O45 say what becomes
of it. -/
theorem commandByteIsCarried : Obligations.CommandByteIsCarried := by
  intro i code s hi
  obtain ⟨hexec, hd, hy⟩ : exec i s = carryCommand code s ∧ code ≠ 0xD0 ∧ code ≠ 0xE0 := by
    rcases hi with ⟨rfl, rfl⟩ | ⟨rfl, rfl⟩ | ⟨rfl, rfl⟩ | ⟨rfl, rfl⟩ <;>
      exact ⟨rfl, by decide, by decide⟩
  rw [hexec]
  refine ⟨fun hp he => ?_, fun as hp hl hm hq => ?_⟩
  · rw [carryCommand_received hp he hd]
    obtain ⟨-, -, -, hcmd⟩ := deliveredHeaderByte (.lit code) code s (.inl ⟨rfl, hd, he⟩)
    obtain ⟨t, ht, -, -, -, hc, hacc, hph, -, hrsp, -, -, hrx, hsent⟩ := hcmd hp
    exact ⟨t, ht, hc, hacc, hph, hrsp, hrx, hsent⟩
  · rw [carryCommand_sent hp hl hd hy]
    obtain ⟨t, ht, htx, has, -, hph, -, hgo, -, hrcv⟩ :=
      logicalByteIsWrittenEscaped (.txlit code) code [code] s as
        (.inr (.inr ⟨rfl, hd, hy, rfl⟩)) (by rw [hp]; rfl)
        (by simp [State.txLogical, hp, hl]) hm hq
    have hnext : t.ph = if 4 < s.lat.l.toNat then .eData else .eChk := by
      simpa [phaseAfterWriting, hp] using hph
    have hbusy : t.ph ≠ .idle := by
      rw [hnext]
      split <;> simp
    exact ⟨t, ht, htx, has, hnext, (hgo hbusy).1, hrcv⟩

end Sys2Proof.Machine

/-! PROOFS. The frame as an instruction (O48, O49), and what the symbols of the wire, the command
codes and the frame leave unchanged (O47). -/

namespace Sys2Proof.Machine

/-! ### A frame arrives -/

theorem RxKeeps.nothingSent {s t : State} (h : RxKeeps s t) : NothingSent s t :=
  ⟨h.ctrl, h.tx, h.txAns, h.txDrawn, h.hostCmd, h.resetPin, h.wbuf⟩

/-- The checksum byte ends a `DEC` whose latches hold all that stands before it
(42_frame_decoder R148). -/
theorem takeChecksum_frameTaken {l u q c x : Byte} {d : List Byte} {s : State} (k : Byte)
    (he : s.escp = false) (hl : l.toNat = d.length + 4) (hs : s.lat = gathered l u q c x d) :
    FrameTaken s (s.takeChecksum k) l u q c d k := by
  have hacc : s.lat.acc = chkSum l u q c d := by rw [hs]; rfl
  unfold State.takeChecksum FrameTaken
  by_cases hbad : s.chkEn = true ∧ k ≠ chkSum l u q c d
  · have hc : (s.chkEn && k != s.lat.acc) = true := by simp [hacc, hbad]
    rw [if_pos hc, if_pos hbad]
    refine ⟨rfl, ?_, ⟨rfl, rfl, State.raiseFault_cause .malformedChk _⟩, rfl⟩
    rw [raiseFault_chkOk, compareChecksum_chkOk, hacc]
  · have hc : ¬ (s.chkEn && k != s.lat.acc) = true := by simpa [hacc] using hbad
    rw [if_neg hc, if_neg hbad]
    refine ⟨he, ?_, ⟨rfl, ?_, State.finish_cause .ok (s.compareChecksum k)⟩, ?_⟩
    · rw [returnFrame_chkOk, compareChecksum_chkOk, hacc]
    · have hdata : (s.lat.dbuf.take s.dataLen) = d := by
        simp [State.dataLen, hs, gathered, Config.overhead, hl]
      have hrsp : ((s.compareChecksum k).returnFrame k (k == s.lat.acc)).hostRsp = s.hostRsp ++
          [.frame s.lat.l s.lat.s s.lat.q s.lat.c (s.lat.dbuf.take s.dataLen) k
            (k == s.lat.acc)] := rfl
      rw [hrsp, hdata, hacc, hs]
      rfl
    · have hseq : ((s.compareChecksum k).returnFrame k (k == s.lat.acc)).seq =
          if s.seqPolicy then s.seq else s.lat.q := rfl
      rw [hseq, hs]
      rfl

theorem takeChecksum_ph (k : Byte) (s : State) : (s.takeChecksum k).ph = .idle := by
  unfold State.takeChecksum
  split <;> rfl

/-- The raw bytes of a frame, taken in the hunt, bring the decoder to the end of its checksum byte
and no further. -/
theorem receiveFrame_eq {l u q c k : Byte} {d : List Byte} {s : State} (hp : s.ph = .dHunt)
    (he : s.escp = false) (hl : l.toNat = d.length + 4) :
    s.receiveFrame l u q c d k =
      { State.takeChecksum k { s with ph := .dChk, lat := gathered l u q c s.lat.k d } with
        rx := s.rx } := by
  rw [State.receiveFrame, frameWire, List.map_cons, List.cons_append, runRx_sync _ _ hp,
    runRx_frameBody s.rx { s with ph := .dLen } rfl he hl (unescape_escList _),
    runRx_idle _ _ (by rw [takeChecksum_ph]; rfl)]

/-- Settles O48: the hunt, the body and the checksum, and nothing behind them. -/
theorem frameArrivesWhole : Obligations.FrameArrivesWhole := by
  intro l u q c k d s hp he hl
  have hexec : exec (.frame l u q c d k) s = .next (s.receiveFrame l u q c d k) := by
    simp [exec, execFrame, hp]
  have htaken := takeChecksum_frameTaken
    (s := { s with ph := .dChk, lat := gathered l u q c s.lat.k d }) k he hl rfl
  have hkeep := (takeChecksum_keeps k { s with ph := .dChk, lat := gathered l u q c s.lat.k d }).1
  rw [hexec, receiveFrame_eq hp he hl]
  exact ⟨_, rfl, rfl, htaken, hkeep.nothingSent⟩

/-! ### A frame is sent -/

/-- Settles O49: the acceptances are as many as the bytes still to be written. -/
theorem frameIsSentWhole : Obligations.FrameIsSentWhole := by
  rintro l u q c k d s rest hp hm hlen rfl rfl rfl rfl rfl rfl hq
  have hexec : exec (.frame s.lat.l s.lat.s s.lat.q s.lat.c s.lat.dbuf s.lat.k) s =
      .next (runTx s.txAns s) := by
    simp [exec, execFrame, inContext, State.holdsFrame, hp]
  have hsend : s.Sending :=
    ⟨by rw [hp]; rfl, by simp [hm], fun _ => hlen, by simp [hp]⟩
  have hrest : s.txRest =
      frameWire s.lat.l s.lat.s s.lat.q s.lat.c s.lat.dbuf s.lat.k := by
    simp [State.txRest, State.txAfter, hp, frameWire]
  obtain ⟨t, hrun, htx, hkeep, -, hend⟩ := runTx_accepts s.txRest.length rest s hsend le_rfl
  rcases hend with ⟨hlt, -⟩ | ⟨-, hidle, hrsp, hst⟩
  · exact absurd hlt (lt_irrefl _)
  · have hstop : runTx s.txAns s = { t with txAns := rest } := by
      rw [hq, ← hrest]
      exact hrun.trans (runTx_idle rest t (by rw [hidle]; rfl))
    have hcause : t.cause = 0 := by
      rw [State.cause, hst]
      exact State.finish_cause .ok s
    rw [List.take_length, hrest] at htx
    rw [hexec, hstop]
    exact ⟨_, rfl, htx, rfl, ⟨hidle, hrsp, hcause⟩, hkeep.seq, hkeep.nothingReceived⟩

/-! ### What is left unchanged -/

/-- A raw write leaves what an answer leaves; it may draw an answer (20_memory R54). -/
theorem rawWrite_txKeeps (s : State) : ∃ n, TxKeeps { s with txDrawn := n } s.rawWrite := by
  rcases rawWrite_cases s with ⟨a, as, -, e⟩ | ⟨-, a, e⟩ | ⟨-, e⟩ <;> rw [e]
  · exact ⟨s.txDrawn, .trans (by constructor <;> rfl) (takeWrite_keeps a { s with txAns := as })⟩
  · exact ⟨s.txDrawn + 1, takeWrite_keeps a _⟩
  · exact ⟨s.txDrawn + 1, .rfl⟩

theorem writeInHand_txKeeps (s : State) : ∃ n, TxKeeps { s with txDrawn := n } s.writeInHand := by
  obtain ⟨n, h⟩ := rawWrite_txKeeps s
  rcases writeInHand_cases s with e | e <;> rw [e]
  · exact ⟨n, h⟩
  · obtain ⟨m, g⟩ := rawWrite_txKeeps s.rawWrite
    exact ⟨m, g.seq.trans h.seq, g.ctrl.trans h.ctrl, g.hostCmd.trans h.hostCmd, g.rx.trans h.rx,
      g.resetPin.trans h.resetPin, g.wbuf.trans h.wbuf, g.exch.trans h.exch,
      g.rxDrawn.trans h.rxDrawn, g.txDrawn, g.chkOk.trans h.chkOk⟩

theorem runTx_tx_prefix (as : List TxAnswer) (s : State) : s.tx <+: (runTx as s).tx := by
  induction as generalizing s with
  | nil => exact List.prefix_rfl
  | cons a as ih =>
    unfold runTx
    split
    · exact (takeWrite_advances a s).1.tx.trans (ih _)
    · exact List.prefix_rfl

/-- What a command code and a frame leave unchanged in either direction. -/
def CarryKeeps (s t : State) : Prop :=
  t.ctrl = s.ctrl ∧ s.tx <+: t.tx ∧ t.hostCmd = s.hostCmd ∧ t.resetPin = s.resetPin ∧
    t.wbuf = s.wbuf ∧ t.exch = s.exch

theorem RxKeeps.carryKeeps {s t : State} (h : RxKeeps s t) : CarryKeeps s t :=
  ⟨h.ctrl, h.tx ▸ List.prefix_rfl, h.hostCmd, h.resetPin, h.wbuf, h.exch⟩

theorem TxKeeps.carryKeeps {s t : State} {n : Nat} (h : TxKeeps { s with txDrawn := n } t)
    (htx : s.tx <+: t.tx) : CarryKeeps s t :=
  ⟨h.ctrl, htx, h.hostCmd, h.resetPin, h.wbuf, h.exch⟩

theorem carryCommand_keeps {code : Byte} {s t : State} (h : carryCommand code s = .next t) :
    CarryKeeps s t := by
  unfold carryCommand at h
  split at h
  · cases h
    exact (takeRaw_keeps code s).1.carryKeeps
  · obtain ⟨-, rfl⟩ := inContext_eq_next.mp h
    obtain ⟨n, hk⟩ := rawWrite_txKeeps s
    exact hk.carryKeeps (rawWrite_advances s).1.tx

theorem execFrame_keeps {l u q c k : Byte} {d : List Byte} {s t : State}
    (h : execFrame l u q c d k s = .next t) : CarryKeeps s t := by
  unfold execFrame at h
  split at h
  · cases h
    exact (runRx_keeps _ s).carryKeeps
  · obtain ⟨-, rfl⟩ := inContext_eq_next.mp h
    exact (runTx_keeps s.txAns s).carryKeeps (n := s.txDrawn) (runTx_tx_prefix s.txAns s)

/-- Settles O47: in its place a symbol takes one raw byte or writes the byte in hand. -/
theorem symbolsLeaveTheRest : Obligations.SymbolsLeaveTheRest := by
  intro i s t h
  refine ⟨fun hi => ?_, fun hi => ?_, fun hi => ?_⟩
  · rcases exec_rx_cases s hi with hplace | hfault
    · obtain ⟨b, hb⟩ := hplace.exec_eq
      cases hb.symm.trans h
      obtain ⟨hk, hrx⟩ := takeRaw_keeps b s
      exact ⟨hk.nothingSent, hrx, hk.exch, hk.rxDrawn⟩
    · cases hfault.symm.trans h
  · rcases exec_tx_cases s hi with hplace | hfault
    · cases hplace.exec_eq.symm.trans h
      obtain ⟨n, hk⟩ := writeInHand_txKeeps s
      exact ⟨hk.nothingReceived, (writeInHand_advances s).1.tx, hk.seq, hk.wbuf, hk.exch⟩
    · cases hfault.symm.trans h
  · cases i with
    | cmdReset | cmdLed | cmdFelicaProbe | cmdAltProbe => exact carryCommand_keeps h
    | frame l u q c d k => exact execFrame_keeps h
    | _ => simp [formatOf] at hi

end Sys2Proof.Machine

/-! PROOFS. The byte-stuffing codec: what `WRB` writes (O13, O14), what `RDB` reads (O15) and that it
reads back what `WRB` wrote (O16), the frame of the receivers (O28), a fault inside an escape pair (O46)
and the shape of an escaped byte (O17). -/

namespace Sys2Proof.Machine

/-! ### `WRB` -/

theorem accepted_single {s : State} (h : s.txPair = false) :
    s.accepted = State.written { s with tx := s.tx ++ [s.txLogical], txMid := false } := by
  simp [State.accepted, State.txRaw, h]

/-- A run whose first answers accept the byte in hand writes it whole and moves on
(40_byte_stuffing_codec R101). -/
theorem runTx_bytesInHand {s : State} (as : List TxAnswer) (ht : s.ph.transmitting = true)
    (hm : s.txMid = false) :
    runTx (oks s.bytesInHand.length ++ as) s =
      runTx as (State.written { s with tx := s.tx ++ s.bytesInHand, txMid := false }) := by
  unfold State.bytesInHand
  cases hpair : s.txPair with
  | false =>
    have hone : s.takeWrite .ok =
        State.written { s with tx := s.tx ++ [s.txLogical], txMid := false } := accepted_single hpair
    exact (runTx_cons .ok as s ht).trans (congrArg _ hone)
  | true =>
    have hfirst : s.takeWrite .ok = { s with tx := s.tx ++ [Config.escByte], txMid := true } :=
      accepted_sentinel hpair hm
    have ht' : (s.takeWrite .ok).ph.transmitting = true := by rw [hfirst]; exact ht
    have hsecond : (s.takeWrite .ok).takeWrite .ok = State.written
        { s with tx := s.tx ++ [Config.escByte, s.txLogical - 1], txMid := false } := by
      rw [hfirst, List.append_cons s.tx _ [_]]
      exact accepted_follow (s := { s with tx := s.tx ++ [Config.escByte], txMid := true }) hpair rfl
    calc runTx (.ok :: .ok :: as) s
        _ = runTx (.ok :: as) (s.takeWrite .ok) := runTx_cons _ _ s ht
        _ = runTx as ((s.takeWrite .ok).takeWrite .ok) := runTx_cons _ _ _ ht'
        _ = _ := congrArg _ hsecond

/-- `WRB` of an accepted byte: its raw bytes go out and the operation ends with `Ok`
(40_byte_stuffing_codec R104). -/
theorem startWrb_accepted {v : Byte} {s : State} {rest : List TxAnswer}
    (hq : s.txAns = oks (escBytes v).length ++ rest) :
    s.startWrb v =
      State.finish .ok
        { s with tx := s.tx ++ escBytes v, txAns := rest, wbuf := v, txMid := false } := by
  have hbytes : State.bytesInHand { s with ph := .bWr, wbuf := v, txMid := false } = escBytes v :=
    bytesInHand_of_escaping rfl
  have hrun := runTx_bytesInHand (s := { s with ph := .bWr, wbuf := v, txMid := false }) rest rfl rfl
  rw [hbytes, ← hq] at hrun
  exact hrun.trans (runTx_idle rest _ rfl)

theorem exec_wrb (v : Byte) {s : State} (hp : s.ph = .idle) :
    exec (.wrb v) s = .next (s.startWrb v) :=
  whenIdle_eq_next.mpr ⟨hp, rfl⟩

theorem escBytes_eq_ite (v : Byte) :
    escBytes v = if v = 0xD0 ∨ v = 0xE0 then [0xD0, v - 1] else [v] := by
  simp only [escBytes, needsEscape_iff]
  rfl

/-- Settles O13. -/
theorem wrbWritesEscapedByte : Obligations.WrbWritesEscapedByte := by
  intro v s rest hp hq
  refine ⟨_, exec_wrb v hp, ?_⟩
  rw [startWrb_accepted hq, ← escBytes_eq_ite]
  exact ⟨rfl, rfl, ⟨rfl, rfl, State.finish_cause _ _⟩,
    ⟨rfl, finish_chkOk _ _, rfl, rfl, rfl, rfl⟩, rfl, rfl, rfl, rfl, rfl⟩

/-- Settles O14: what has gone out is a first part of bytes that hold no sync. -/
theorem wrbNeverWritesRawSync : Obligations.WrbNeverWritesRawSync := by
  intro v s t h
  obtain ⟨-, rfl⟩ := whenIdle_eq_next.mp h
  obtain ⟨hsend, hrest⟩ := sending_startWrb v s
  obtain ⟨sent, htx, hpre, -⟩ := runTx_any s.txAns _ hsend
  rw [hrest] at hpre
  have hkeep := runTx_keeps s.txAns { s with ph := .bWr, wbuf := v, txMid := false }
  exact ⟨sent, htx, hpre, fun hmem => sync_not_mem_escBytes v (hpre.subset hmem),
    hkeep.nothingReceived, hkeep.seq, hkeep.exch⟩

/-! ### `RDB` -/

/-- `RDB` takes the raw bytes of one logical byte, in any form, and responds with it
(40_byte_stuffing_codec R105). -/
theorem startRdb_reads {raw : List Byte} {v : Byte} {s : State} {rest : List RxAnswer}
    (hraw : unescape raw = some [v]) (hq : s.rx = arriving raw ++ rest) :
    s.startRdb = State.finish (.byte v) { s with escp := false, rx := rest } := by
  obtain ⟨first, more, rfl, hmore, hrun⟩ := unescape_cons hraw
  rw [unescape_nil hmore, List.append_nil] at hq
  have hrun := hrun rest { s with ph := .bRd, escp := false } rfl rfl
  rw [← arriving, ← hq] at hrun
  exact hrun.trans (runRx_idle rest _ rfl)

theorem exec_rdb {s : State} (hp : s.ph = .idle) : exec .rdb s = .next s.startRdb :=
  whenIdle_eq_next.mpr ⟨hp, rfl⟩

theorem unescape_literal {v : Byte} (hv : v ≠ 0xD0) : unescape [v] = some [v] := by
  have hv : v ≠ Config.escByte := hv
  simp [unescape, unescapeFrom, hv]

theorem unescape_pair (f : Byte) : unescape [0xD0, f] = some [f + 1] := rfl

/-- Settles O15: either raw form is one logical byte. -/
theorem rdbReadsOneLogicalByte : Obligations.RdbReadsOneLogicalByte := by
  intro s raw v rest hp hform hq
  have hraw : unescape raw = some [v] := by
    rcases hform with ⟨rfl, hv⟩ | rfl
    · exact unescape_literal hv
    · rw [unescape_pair, BitVec.sub_add_cancel]
  refine ⟨_, exec_rdb hp, ?_⟩
  rw [startRdb_reads hraw hq]
  exact ⟨rfl, ⟨rfl, rfl, State.finish_cause _ _⟩, rfl, finish_chkOk _ _,
    ⟨rfl, rfl, rfl, rfl, rfl, rfl, rfl⟩, rfl, rfl, rfl, rfl⟩

/-- Settles O16: what the escaper writes is one logical byte to the reader. -/
theorem writtenByteReadsBack : Obligations.WrittenByteReadsBack := by
  intro v s u ready rest hs hready hu harrives
  have hraw : unescape (escBytes v) = some [v] := by simpa [escList] using unescape_escList [v]
  refine ⟨_, exec_wrb v hs, ?_, _, exec_rdb hu, ?_⟩
  · rw [startWrb_accepted hready]
    rfl
  · rw [startRdb_reads hraw harrives]
    exact ⟨rfl, rfl⟩

/-! ### The frame of the receivers -/

/-- In an `RDB` no answer returns a frame or compares a checksum. -/
theorem RxOutcome.seq_chkOk_of_bRd {s t : State} (h : RxOutcome s t) (hp : s.ph = .bRd) :
    t.seq = s.seq ∧ t.chkOk = s.chkOk := by
  cases h with
  | goesOn _ _ seq chk => exact ⟨seq, chk⟩
  | faulted _ _ _ seq chk => exact ⟨seq, chk.resolve_right fun ⟨hne, _⟩ => hne hp⟩
  | gaveByte _ _ _ seq chk => exact ⟨seq, chk⟩
  | gaveFrame _ _ _ _ _ _ _ _ _ _ _ rdb => exact absurd hp rdb

/-- Settles O28. -/
theorem receiversLeaveTheRest : Obligations.ReceiversLeaveTheRest := by
  intro s t
  refine ⟨fun h => ?_, fun h => ?_⟩
  · obtain ⟨-, rfl⟩ := whenIdle_eq_next.mp h
    have hkeep := startDec_keeps s
    exact ⟨hkeep.nothingSent, (startDec_advances s).1.rx, hkeep.exch⟩
  · obtain ⟨-, rfl⟩ := whenIdle_eq_next.mp h
    have hkeep := startRdb_keeps s
    exact ⟨hkeep.nothingSent, (startRdb_advances s).1.rx, hkeep.exch,
      (runRx_outcome s.rx { s with ph := .bRd, escp := false } rfl).seq_chkOk_of_bRd rfl⟩

/-! ### A fault inside an escape pair -/

/-- With the sentinel accepted, the write of a pair goes on with the follow byte. -/
theorem writeInHand_sentinel {s : State} {as : List TxAnswer} (h : s.txPair = true)
    (hm : s.txMid = false) (hq : s.txAns = .ok :: as) :
    s.writeInHand =
      State.rawWrite { s with tx := s.tx ++ [Config.escByte], txAns := as, txMid := true } := by
  have hfirst : s.rawWrite =
      { s with tx := s.tx ++ [Config.escByte], txAns := as, txMid := true } :=
    (rawWrite_ok hq).trans (accepted_sentinel (s := s.withTxAns as) h hm)
  simp [State.writeInHand, State.rawWritePair, h, hm, hfirst]

/-- Settles O46: the first write of the pair leaves the sentinel, the second is the fault. -/
theorem faultInsidePairLeavesSentinel : Obligations.FaultInsidePairLeavesSentinel := by
  intro i v raw s as hw hlen hesc hv hm hq
  obtain ⟨rfl, rfl⟩ := hw.eq_txSymbol
  have hneeds : needsEscape v = true := by
    rw [length_escBytes] at hlen
    by_contra hno
    simp [hno] at hlen
  have hpair : s.txPair = true := by simp [State.txPair, hesc, hv, hneeds]
  have hplace : TxPlace (txSymbol false v) s :=
    txPlace_of_writing (by simp [State.writing, hesc, hv]) rfl
  refine ⟨_, hplace.exec_eq, ?_⟩
  rw [writeInHand_sentinel hpair hm hq, rawWrite_fatal rfl]
  exact ⟨rfl, rfl, ⟨rfl, rfl, State.raiseFault_cause _ _⟩, rfl,
    rfl, raiseFault_chkOk _ _, rfl, rfl, rfl, rfl⟩

/-! ### The shape of an escaped byte -/

/-- Settles O17, by whether the byte is one of the two the escaper writes as pairs. -/
theorem escapedByteShape : Obligations.EscapedByteShape := by
  intro v
  refine ⟨sync_not_mem_escBytes v, ?_⟩
  rw [← needsEscape_iff, length_escBytes]
  cases h : needsEscape v with
  | true =>
    refine ⟨fun _ => ?_, by simp, by simp⟩
    rcases (needsEscape_iff v).mp h with rfl | rfl
    · exact .inl rfl
    · exact .inr rfl
  | false =>
    refine ⟨fun hmem => ?_, by simp, by simp⟩
    rw [escBytes_of_not_needsEscape h, List.mem_singleton] at hmem
    subst hmem
    cases h

end Sys2Proof.Machine

/-! PROOFS. The frame encoder: the whole frame (O20), a refusal for its length (O21), a write fault inside
it (O22) and the frame of the senders (O23). -/

namespace Sys2Proof.Machine

/-! ### An `ENC` from its start -/

theorem exec_enc (sub cmd : Byte) (data : List Byte) {s : State} (hp : s.ph = .idle) :
    exec (.enc sub cmd data) s = .next (s.startEnc sub cmd data) :=
  whenIdle_eq_next.mpr ⟨hp, rfl⟩

/-- An admitted `ENC` at its delimiter, no byte written yet (41_frame_encoder R120, R122). -/
def State.atDelimiter (sub cmd : Byte) (data : List Byte) (s : State) : State :=
  { s with
    seq := sentSeq s, lat := encodeLatches sub (sentSeq s) cmd data, ph := .eSync, txMid := false }

theorem startEnc_eq_runTx {data : List Byte} (sub cmd : Byte) (s : State) (h : data.length ≤ 251) :
    s.startEnc sub cmd data = runTx s.txAns (s.atDelimiter sub cmd data) :=
  startEnc_admitted sub cmd s h

/-- The first k acceptances send the first k bytes of the frame; the operation goes on until all are
out, and then ends with `Ok` (41_frame_encoder R127). -/
theorem startEnc_accepts {sub cmd : Byte} {data : List Byte} {s : State} {k : Nat}
    {as : List TxAnswer} (h : data.length ≤ 251)
    (hk : k ≤ (frameBytes sub (sentSeq s) cmd data).length) (hq : s.txAns = oks k ++ as) :
    ∃ u, s.startEnc sub cmd data = runTx as u ∧
      u.tx = s.tx ++ (frameBytes sub (sentSeq s) cmd data).take k ∧
      TxKeeps (s.atDelimiter sub cmd data) u ∧ u.escp = s.escp ∧
      ((k < (frameBytes sub (sentSeq s) cmd data).length ∧ u.Sending ∧ u.hostRsp = s.hostRsp) ∨
        (k = (frameBytes sub (sentSeq s) cmd data).length ∧ EndedWith s u .ok 0)) := by
  have hrest : (s.atDelimiter sub cmd data).txRest = frameBytes sub (sentSeq s) cmd data :=
    txRest_startEnc s sub cmd data
  obtain ⟨u, hrun, htx, hkeep, hescp, hend⟩ :=
    runTx_accepts k as (s.atDelimiter sub cmd data) (sending_startEnc s sub cmd data h)
      (hrest ▸ hk)
  rw [hrest] at htx hend
  refine ⟨u, ?_, htx, hkeep, hescp, hend.imp ?_ ?_⟩
  · rw [startEnc_eq_runTx sub cmd s h, hq]
    exact hrun
  · rintro ⟨hlt, hsend, -, hrsp, -⟩
    exact ⟨hlt, hsend, hrsp⟩
  · rintro ⟨hall, hidle, hrsp, hst⟩
    refine ⟨hall, hidle, hrsp, ?_⟩
    rw [State.cause, hst]
    exact State.finish_cause .ok s

/-- Settles O20: the acceptances are as many as the bytes of the frame. -/
theorem encWritesItsFrame : Obligations.EncWritesItsFrame := by
  intro sub cmd data s rest hp hd hq
  refine ⟨_, exec_enc sub cmd data hp, ?_⟩
  obtain ⟨u, hrun, htx, hkeep, hescp, ⟨hlt, -⟩ | ⟨-, hend⟩⟩ := startEnc_accepts hd le_rfl hq
  · exact absurd hlt (lt_irrefl _)
  · rw [List.take_length] at htx
    rw [hrun, runTx_idle rest u (by rw [hend.1]; rfl)]
    exact ⟨htx, rfl, hkeep.seq, hend, hkeep.nothingReceived, hescp, hkeep.exch, hkeep.txDrawn⟩

/-- Settles O22: the n acceptances leave the transmission in progress, and `Fatal` ends it. -/
theorem encWriteFaultLeavesPartialFrame : Obligations.EncWriteFaultLeavesPartialFrame := by
  intro sub cmd data s n rest hp hd hn hq
  refine ⟨_, exec_enc sub cmd data hp, ?_⟩
  obtain ⟨u, hrun, htx, hkeep, -, ⟨-, hsend, hrsp⟩ | ⟨hall, -⟩⟩ := startEnc_accepts hd hn.le hq
  · have hstop : s.startEnc sub cmd data =
        { u.raiseFault .transportFatal with txAns := rest } := by
      rw [hrun, runTx_cons _ _ _ hsend.transmitting]
      exact runTx_idle rest (u.raiseFault .transportFatal) rfl
    have hfault := hkeep.trans (takeWrite_keeps .fatal u)
    have hresp : (u.raiseFault .transportFatal).hostRsp = s.hostRsp ++ [.fault .transportFatal] := by
      rw [State.raiseFault_hostRsp, hrsp]
    rw [hstop]
    exact ⟨htx, rfl, hkeep.seq, ⟨rfl, hresp, State.raiseFault_cause _ u⟩, rfl,
      hfault.nothingReceived⟩
  · exact absurd hall hn.ne

/-! ### A refusal, and the frame of the senders -/

theorem chkOk_withCause_tooLong (status : Byte) :
    (withCause status BlockRefusal.encodeTooLong.code).getLsbD 4 = status.getLsbD 4 := by
  revert status
  decide

/-- Settles O21: the refusal is a response and `CAUSE`. -/
theorem encRefusesLongData : Obligations.EncRefusesLongData := by
  intro sub cmd data s hp hd
  refine ⟨_, exec_enc sub cmd data hp, ?_⟩
  rw [startEnc_refused sub cmd s hd]
  exact ⟨⟨hp, rfl, cause_withCause_tooLong s.status⟩,
    ⟨rfl, chkOk_withCause_tooLong s.status, rfl, rfl, rfl, rfl⟩, rfl, rfl, rfl, rfl, rfl, rfl⟩

/-- Refused or admitted, and whatever the transport answers, an `ENC` leaves the receive side. -/
theorem startEnc_nothingReceived (sub cmd : Byte) (data : List Byte) (s : State) :
    NothingReceived s (s.startEnc sub cmd data) ∧ (s.startEnc sub cmd data).exch = s.exch := by
  rcases Nat.lt_or_ge Config.maxData data.length with hd | hd
  · rw [startEnc_refused sub cmd s hd]
    exact ⟨⟨rfl, chkOk_withCause_tooLong s.status, rfl, rfl, rfl, rfl⟩, rfl⟩
  · rw [startEnc_eq_runTx sub cmd s hd]
    have hkeep := runTx_keeps s.txAns (s.atDelimiter sub cmd data)
    exact ⟨hkeep.nothingReceived, hkeep.exch⟩

theorem startEnc_seq_sampled (sub cmd : Byte) (data : List Byte) (s : State) :
    (s.startEnc sub cmd data).seq = s.seq ∨ (s.startEnc sub cmd data).seq = sentSeq s := by
  refine (startEnc_seq sub cmd data s).imp_right fun ⟨hpol, hseq, _⟩ => ?_
  simp [hseq, sentSeq, hpol]

/-- The instructions that send one frame (41_frame_encoder R120; 44_serial_protocol_framer R194 to
R198). -/
def SendsFrame (i : Instr) : Prop :=
  (∃ sub cmd data, i = .enc sub cmd data) ∨ i = .resetCmd ∨ i = .felicaProbe ∨
    (∃ red green blue, i = .ledSet red green blue) ∨ i = .altProbe40

/-- Each of them is an `ENC`, with the operands of its row. -/
theorem SendsFrame.eq_startEnc {i : Instr} {s t : State} (hi : SendsFrame i)
    (h : exec i s = .next t) : ∃ sub cmd data, t = s.startEnc sub cmd data := by
  rcases hi with ⟨sub, cmd, data, rfl⟩ | rfl | rfl | ⟨red, green, blue, rfl⟩ | rfl <;>
    exact ⟨_, _, _, (whenIdle_eq_next.mp h).2⟩

/-- Settles O23: the senders are all an `ENC`. -/
theorem sendersLeaveTheRest : Obligations.SendersLeaveTheRest := by
  intro i s t hi h
  obtain ⟨sub, cmd, data, rfl⟩ := SendsFrame.eq_startEnc hi h
  obtain ⟨hrcv, hexch⟩ := startEnc_nothingReceived sub cmd data s
  exact ⟨hrcv, (startEnc_advances sub cmd data s).1.tx, hexch, startEnc_seq_sampled sub cmd data s⟩

end Sys2Proof.Machine

/-! PROOFS. The frame decoder: a `DEC` over noise (O29), over a whole frame (O24, O25) and over a length that
is too short (O26), what it does to `SEQ` and `CHK_OK` (O27), and the symbols that end its phases (O41 to
O43). -/

namespace Sys2Proof.Machine

/-! ### A `DEC` from its start -/

/-- A `DEC` at the start of its hunt, no answer taken yet (42_frame_decoder R140). -/
def State.atHunt (s : State) : State :=
  { s with status := withChkOk s.status false, ph := .dHunt, escp := false }

theorem exec_dec {s : State} (hp : s.ph = .idle) : exec .dec s = .next s.startDec :=
  whenIdle_eq_next.mpr ⟨hp, rfl⟩

/-- From the start of a `DEC` to its checksum comparison `CHK_OK` is 0 (42_frame_decoder R152). -/
theorem atHunt_chkOk (s : State) : s.atHunt.chkOk = false :=
  chkOk_withChkOk s.status false

/-- The noise before a sync has no effect but that it is taken (42_frame_decoder R141). -/
theorem startDec_noise {noise : List Byte} {s : State} {as : List RxAnswer}
    (hn : (0xE0 : Byte) ∉ noise) (hq : s.rx = arriving noise ++ as) :
    s.startDec = runRx as s.atHunt := by
  rw [← runRx_hunt noise as s.atHunt rfl hn, ← arriving, ← hq]
  rfl

/-- Behind the noise the sync starts the body (42_frame_decoder R141). -/
theorem startDec_sync {noise raw : List Byte} {s : State} {rest : List RxAnswer}
    (hn : (0xE0 : Byte) ∉ noise) (hq : s.rx = arriving (noise ++ 0xE0 :: raw) ++ rest) :
    s.startDec = runRx (raw.map .byte ++ rest) { s.atHunt with ph := .dLen } := by
  rw [startDec_noise (as := .byte 0xE0 :: (arriving raw ++ rest)) hn (by simp [hq, arriving])]
  exact runRx_sync _ s.atHunt rfl

/-- Settles O29: there is no answer left, and the hunt has not ended. -/
theorem huntGoesOnWithoutSync : Obligations.HuntGoesOnWithoutSync := by
  intro noise s hp hn hq
  have hrun : s.startDec = { s.atHunt with rx := [] } :=
    startDec_noise (as := []) hn (by simpa using hq)
  have hsent := (startDec_keeps s).nothingSent
  refine ⟨_, exec_dec hp, ?_⟩
  rw [hrun] at hsent ⊢
  exact ⟨rfl, rfl, rfl, rfl, hsent⟩

/-! ### A whole frame -/

/-- `DEC` takes a frame behind any noise and in any raw forms up to its checksum byte, and nothing
behind it (42_frame_decoder R141 to R145). -/
theorem startDec_frame {l u q c k : Byte} {d noise raw : List Byte} {s : State}
    {rest : List RxAnswer} (hn : (0xE0 : Byte) ∉ noise) (hl : l.toNat = d.length + 4)
    (hraw : unescape raw = some (l :: u :: q :: c :: (d ++ [k])))
    (hq : s.rx = arriving (noise ++ 0xE0 :: raw) ++ rest) :
    s.startDec =
      { State.takeChecksum k { s.atHunt with ph := .dChk, lat := gathered l u q c s.lat.k d } with
        rx := rest } := by
  rw [startDec_sync hn hq, runRx_frameBody rest { s.atHunt with ph := .dLen } rfl rfl hl hraw]
  exact runRx_idle rest _ (by rw [takeChecksum_ph]; rfl)

/-- Settles O25: the checksum byte ends the `DEC`, with the latches full. -/
theorem decParsesAnyRawForm : Obligations.DecParsesAnyRawForm := by
  intro l u q c k d noise raw s rest hp hn hl hraw hq
  have htaken := takeChecksum_frameTaken
    (s := { s.atHunt with ph := .dChk, lat := gathered l u q c s.lat.k d }) k rfl hl rfl
  have hkeep := startDec_keeps s
  refine ⟨_, exec_dec hp, ?_, ?_, hkeep.nothingSent, hkeep.exch, hkeep.rxDrawn⟩ <;>
    rw [startDec_frame hn hl hraw hq]
  exact htaken

/-- The length field holds the length of a frame that fits (30_encoding R75). -/
theorem lengthField_toNat {n : Nat} (h : n ≤ 251) : (lengthField n).toNat = n + 4 := by
  rw [lengthField, BitVec.toNat_ofNat, Config.overhead]
  omega

/-- Settles O24: `FrameBytes` is one raw form of a frame whose checksum is right. -/
theorem decReturnsEncodedFrame : Obligations.DecReturnsEncodedFrame := by
  intro u q c d s rest hp hd hq
  obtain ⟨t, hexec, hrx, ⟨-, -, hend⟩, hsent, -⟩ :=
    decParsesAnyRawForm _ u q c _ d [] _ s rest hp (by simp) (lengthField_toNat hd)
      (unescape_escList _) hq
  rw [if_neg fun ⟨_, hwrong⟩ => hwrong rfl, beq_self_eq_true] at hend
  exact ⟨t, hexec, hrx, hend.1, hend.2, hsent⟩

/-! ### A length that is too short -/

/-- A length below 4 is `MalformedFrame(LEN)`, by whichever symbol it came (42_frame_decoder R143). -/
theorem takeLogical_shortLength {v : Byte} {s : State} (hp : s.ph = .dLen) (hv : v.toNat < 4) :
    s.takeLogical v = State.raiseFault .malformedLen { s with lat := { s.lat with l := v } } := by
  have hv : v.toNat < Config.overhead := hv
  simp [State.takeLogical, hp, State.takeLength, hv]

/-- Settles O26: the length is all of the body that is taken. -/
theorem decRefusesShortLength : Obligations.DecRefusesShortLength := by
  intro l noise raw s rest hp hn hl hraw hq
  obtain ⟨first, more, rfl, hmore, hrun⟩ := unescape_cons hraw
  rw [unescape_nil hmore, List.append_nil] at hq
  have hsent := (startDec_keeps s).nothingSent
  refine ⟨_, exec_dec hp, ?_⟩
  rw [startDec_sync hn hq, hrun rest { s.atHunt with ph := .dLen } rfl rfl,
    takeLogical_shortLength rfl hl, runRx_idle rest _ rfl] at hsent ⊢
  exact ⟨rfl, ⟨rfl, rfl, State.raiseFault_cause _ _⟩, (raiseFault_chkOk _ _).trans (atHunt_chkOk s),
    rfl, rfl, hsent⟩

/-- Settles O41: the delivered byte is that length. -/
theorem deliveredShortLength : Obligations.DeliveredShortLength := by
  intro i v s hd hp hv
  refine ⟨_, exec_delivers hd (by rw [hp]; rfl), ?_⟩
  rw [takeLogical_shortLength (s := { s with escp := false }) hp hv]
  exact ⟨⟨rfl, rfl, State.raiseFault_cause _ _⟩, rfl, rfl, rfl, raiseFault_chkOk _ _,
    rfl, rfl, rfl, rfl, rfl, rfl, rfl⟩

/-! ### `SEQ` and `CHK_OK` after a `DEC` -/

/-- Settles O27: what a run over the answers can do, started with `CHK_OK` at 0. -/
theorem decAdoptsOnlyFromReturnedFrame : Obligations.DecAdoptsOnlyFromReturnedFrame := by
  intro s t h
  obtain ⟨-, rfl⟩ := whenIdle_eq_next.mp h
  have hclear := atHunt_chkOk s
  cases (runRx_outcome s.rx s.atHunt rfl : RxOutcome s.atHunt s.startDec) with
  | goesOn _ rsp seq chk => exact .inl ⟨rsp, seq, chk.trans hclear⟩
  | faulted f _ rsp seq chk =>
    exact .inr (.inl ⟨f, rsp, seq, chk.elim (·.trans hclear) (·.2)⟩)
  | gaveByte _ _ _ _ _ rdb => cases rdb
  | gaveFrame l u q c d k good _ rsp seq chk =>
    exact .inr (.inr ⟨l, u, q, c, d, k, good, rsp, chk, seq⟩)

/-! ### The data and the checksum, one symbol at a time -/

/-- Settles O42: `IDX` stands at the end of the data there are. -/
theorem deliveredDataByte : Obligations.DeliveredDataByte := by
  intro i v s hd hp hidx
  rw [exec_delivers hd (by rw [hp]; rfl)]
  simp [State.takeLogical, hp, State.takeData, hidx, dataPhase, State.dataLen, Config.overhead]

/-- The checksum byte ends the `DEC` with a fault where it is wrong and enforced
(42_frame_decoder R148). -/
theorem takeChecksum_enforced {k : Byte} {s : State} (hen : s.chkEn = true) (hk : k ≠ s.lat.acc) :
    s.takeChecksum k = (s.compareChecksum k).raiseFault .malformedChk :=
  if_pos (by simp [hen, hk])

/-- The checksum byte ends the `DEC` with its frame where it is right or not enforced
(42_frame_decoder R146, R148). -/
theorem takeChecksum_returned {k : Byte} {s : State} (h : s.chkEn = false ∨ k = s.lat.acc) :
    s.takeChecksum k = (s.compareChecksum k).returnFrame k (k == s.lat.acc) :=
  if_neg (by rcases h with h | h <;> simp [h])

theorem takeChecksum_escp (k : Byte) {s : State} (he : s.escp = false) :
    (s.takeChecksum k).escp = false := by
  unfold State.takeChecksum
  split
  · rfl
  · exact he

theorem takeChecksum_chkOk (k : Byte) (s : State) :
    (s.takeChecksum k).chkOk = (k == s.lat.acc) := by
  unfold State.takeChecksum
  split <;> simp

/-- Settles O43: one comparison, and the end of it that `CHK_EN` asks for. -/
theorem deliveredChecksum : Obligations.DeliveredChecksum := by
  intro i v s hd hp hdata
  have htake : State.takeLogical v { s with escp := false } =
      State.takeChecksum v { s with escp := false } := by simp [State.takeLogical, hp]
  have hkeep := takeChecksum_keeps v { s with escp := false }
  refine ⟨_, (exec_delivers hd (by rw [hp]; rfl)).trans (congrArg _ htake),
    takeChecksum_escp v rfl, takeChecksum_chkOk v _, hkeep.2, hkeep.1.nothingSent,
    fun hen hv => ?_, fun hret => ?_⟩
  · rw [takeChecksum_enforced (s := { s with escp := false }) hen hv]
    exact ⟨⟨rfl, rfl, State.raiseFault_cause _ _⟩, rfl⟩
  · have hall : s.lat.dbuf.take s.dataLen = s.lat.dbuf := List.take_of_length_le hdata.le
    rw [takeChecksum_returned (s := { s with escp := false }) hret]
    refine ⟨⟨rfl, ?_, State.finish_cause .ok _⟩, rfl⟩
    exact congrArg (fun d => s.hostRsp ++
      [.frame s.lat.l s.lat.s s.lat.q s.lat.c d v (v == s.lat.acc)]) hall

end Sys2Proof.Machine

/-! PROOFS. The register operations: what `RDREG` reads (O33), what `WRREG` writes (O34), and the session
reset `SRST` (O35). -/

namespace Sys2Proof.Machine

/-! ### `RDREG` -/

theorem exec_rdreg (r : BitVec 2) {s : State} (hp : s.ph = .idle) :
    exec (.rdreg r) s = .next (s.readRegister r) :=
  whenIdle_eq_next.mpr ⟨hp, rfl⟩

theorem readReg_seq (s : State) : s.readReg 0 = some s.seq := rfl
theorem readReg_ctrl (s : State) : s.readReg 1 = some (s.ctrl &&& 0x03) := rfl
theorem readReg_status (s : State) : s.readReg 2 = some (s.status &&& 0x1F) := rfl
theorem readReg_illegal (s : State) : s.readReg 3 = none := rfl

/-- The response to `RDREG` carries the register as the host reads it (43_sequence_and_registers R175). -/
theorem exec_rdreg_some {r : BitVec 2} {v : Byte} {s : State} (hp : s.ph = .idle)
    (hv : s.readReg r = some v) : exec (.rdreg r) s = .next (s.respond (.byte v)) := by
  rw [exec_rdreg r hp, State.readRegister, hv]

/-- `RDREG` refuses a number that names no register (43_sequence_and_registers R178). -/
theorem exec_rdreg_none {r : BitVec 2} {s : State} (hp : s.ph = .idle) (hv : s.readReg r = none) :
    exec (.rdreg r) s = .next (s.respond (.refused .illegalReg)) := by
  rw [exec_rdreg r hp, State.readRegister, hv]

/-- Settles O33, by the register each number names. -/
theorem rdregReadsRegister : Obligations.RdregReadsRegister := fun s hp =>
  ⟨exec_rdreg_some hp (readReg_seq s), exec_rdreg_some hp (readReg_ctrl s),
    exec_rdreg_some hp (readReg_status s), exec_rdreg_none hp (readReg_illegal s)⟩

/-! ### `WRREG` -/

theorem exec_wrreg (r : BitVec 2) (v : Byte) {s : State} (hp : s.ph = .idle) :
    exec (.wrreg r v) s = .next (s.writeRegister r v) :=
  whenIdle_eq_next.mpr ⟨hp, rfl⟩

theorem writeReg_ctrl (v : Byte) (s : State) :
    s.writeReg 1 v = { s with ctrl := v &&& 0x03 } := rfl

/-- No register but `CTRL` takes a write of the host (43_sequence_and_registers R177). -/
theorem writeReg_of_ne {r : BitVec 2} (hr : r ≠ 1) (v : Byte) (s : State) : s.writeReg r v = s :=
  if_neg hr

/-- `WRREG` to a number that names a register responds `Ok` (43_sequence_and_registers R176, R177). -/
theorem exec_wrreg_ok {r : BitVec 2} (v : Byte) {s : State} (hp : s.ph = .idle) (hr : r ≠ 3) :
    exec (.wrreg r v) s = .next ((s.writeReg r v).respond .ok) := by
  rw [exec_wrreg r v hp, State.writeRegister, if_neg hr]

/-- `WRREG` refuses number 3 (43_sequence_and_registers R178). -/
theorem exec_wrreg_illegal (v : Byte) {s : State} (hp : s.ph = .idle) :
    exec (.wrreg 3 v) s = .next (s.respond (.refused .illegalReg)) := by
  rw [exec_wrreg 3 v hp, State.writeRegister, if_pos rfl]

/-- A register other than `CTRL` is accepted and not written (43_sequence_and_registers R177). -/
theorem exec_wrreg_readOnly {r : BitVec 2} (v : Byte) {s : State} (hp : s.ph = .idle)
    (hr : r ≠ 3) (hctrl : r ≠ 1) : exec (.wrreg r v) s = .next (s.respond .ok) := by
  rw [exec_wrreg_ok v hp hr, writeReg_of_ne hctrl]

/-- Settles O34, by the register each number names. -/
theorem wrregWritesControlOnly : Obligations.WrregWritesControlOnly := by
  intro s v hp
  refine ⟨exec_wrreg_readOnly v hp (by decide) (by decide), ?_,
    exec_wrreg_readOnly v hp (by decide) (by decide), exec_wrreg_illegal v hp⟩
  rw [exec_wrreg_ok v hp (by decide), writeReg_ctrl]
  rfl

/-! ### `SRST` -/

theorem exec_srst {s : State} (hp : s.ph = .idle) : exec .srst s = .next s.sessionReset :=
  whenIdle_eq_next.mpr ⟨hp, rfl⟩

/-- Settles O35, by the fields of the session reset. -/
theorem srstStartsNewSession : Obligations.SrstStartsNewSession := by
  intro s hp
  refine ⟨s.sessionReset, exec_srst hp, ?_⟩
  simp

end Sys2Proof.Machine

/-! PROOFS. The host port: which instructions it accepts and when (O36), what a step of an idle block does
(O5), and that a host operation gives one response, at its end (O58). -/

namespace Sys2Proof.Machine

/-! ### Acceptance at `IDLE` -/

/-- A host operation or pseudo-operation has one effect, which it has at `IDLE`
(44_serial_protocol_framer R192). -/
theorem exec_hostPort {i : Instr} (hi : formatOf i = .hostop ∨ formatOf i = .pseudo) :
    ∃ op : State → State, ∀ s, exec i s = whenIdle op s := by
  cases i
  case wrb | rdb | enc | dec | rdreg | wrreg | srst | reserved | resetCmd | felicaProbe | ledSet |
      altProbe40 | exchange => exact ⟨_, fun _ => rfl⟩
  all_goals simp [formatOf] at hi

theorem idle_of_exec {i : Instr} {s t : State} (hi : formatOf i = .hostop ∨ formatOf i = .pseudo)
    (h : exec i s = .next t) : s.ph = .idle := by
  obtain ⟨op, hop⟩ := exec_hostPort hi
  exact (whenIdle_eq_next.mp (hop s ▸ h)).1

/-- Settles O36. -/
theorem busyHostPortTakesNothing : Obligations.BusyHostPortTakesNothing := by
  intro i s hi
  obtain ⟨op, hop⟩ := exec_hostPort hi
  rw [hop]
  exact ⟨fun hbusy => if_neg hbusy, fun hidle => ⟨op s, if_pos hidle⟩⟩

/-! ### A step of an idle block -/

/-- Where no operation is presented whole, an idle block waits (44_serial_protocol_framer R192). -/
theorem step_waits_host {s : State} {e : DecodeError} (hpin : s.resetPin = false)
    (hp : s.ph = .idle) (hx : s.exch = false) (hd : decode s.hostCmd = .error e) :
    step s = .next s := by
  have hfetch : s.fetch = .moved s := by
    simp [State.fetch, State.fetchHost, hpin, hp, hx, hd]
  unfold step
  rw [hfetch]

/-- Inside an `EXCHANGE` the step of an idle block is the host's half (44_serial_protocol_framer R200). -/
theorem step_follows_up {s : State} (hpin : s.resetPin = false) (hp : s.ph = .idle)
    (hx : s.exch = true) : step s = .next s.followUp := by
  have hfetch : s.fetch = .moved s.followUp := by
    simp [State.fetch, State.fetchHost, hpin, hp, hx]
  unfold step
  rw [hfetch]

/-- The host issues the `DEC` when the `ENC` has responded `Ok`, and otherwise nothing
(44_serial_protocol_framer R200). -/
theorem followUp_issues {s : State} (hp : s.ph = .idle) (hx : s.exch = true)
    (hl : s.hostRsp.getLast? = some .ok) : .next s.followUp = exec .dec { s with exch := false } := by
  rw [exec_dec (s := { s with exch := false }) hp]
  simp [State.followUp, hp, hx, hl]

theorem followUp_drops {s : State} (hp : s.ph = .idle) (hx : s.exch = true)
    (hl : s.hostRsp.getLast? ≠ some .ok) : s.followUp = { s with exch := false } := by
  simp [State.followUp, hp, hx, hl]

/-- Settles O5. -/
theorem stepRunsHostOperation : Obligations.StepRunsHostOperation := by
  intro s hpin hp
  refine ⟨fun hx => ⟨fun i rest hd => step_runs_host hpin hp hx hd,
    fun e hd => step_waits_host hpin hp hx hd⟩, fun hx => ?_⟩
  rw [step_follows_up hpin hp hx]
  exact ⟨followUp_issues hp hx, fun hl => by rw [followUp_drops hp hx hl]⟩

/-! ### The response of an operation -/

/-- The operation goes on and has not responded, or has ended with one response
(44_serial_protocol_framer R191, R192). -/
def RespondsAtEnd (s t : State) : Prop :=
  (t.ph ≠ .idle ∧ t.hostRsp = s.hostRsp) ∨ (t.ph = .idle ∧ ∃ r, t.hostRsp = s.hostRsp ++ [r])

theorem RxOutcome.respondsAtEnd {s t : State} (h : RxOutcome s t) : RespondsAtEnd s t := by
  cases h with
  | goesOn ph rsp => exact .inl ⟨fun hidle => absurd (hidle ▸ ph) (by decide), rsp⟩
  | faulted f ph rsp => exact .inr ⟨ph, _, rsp⟩
  | gaveByte b ph rsp => exact .inr ⟨ph, _, rsp⟩
  | gaveFrame l u q c d k good ph rsp => exact .inr ⟨ph, _, rsp⟩

theorem runTx_respondsAtEnd (as : List TxAnswer) {s : State} (h : s.Sending) :
    RespondsAtEnd s (runTx as s) := by
  obtain ⟨-, -, -, hend⟩ := runTx_any as s h
  exact hend.imp_left fun ⟨ht, hrsp⟩ => ⟨(not_receiving_of_transmitting ht).1, hrsp⟩

theorem respond_respondsAtEnd {s : State} (hp : s.ph = .idle) (r : Response) :
    RespondsAtEnd s (s.respond r) :=
  .inr ⟨hp, r, rfl⟩

theorem startEnc_respondsAtEnd (sub cmd : Byte) (data : List Byte) {s : State} (hp : s.ph = .idle) :
    RespondsAtEnd s (s.startEnc sub cmd data) := by
  rcases Nat.lt_or_ge Config.maxData data.length with hd | hd
  · rw [startEnc_refused sub cmd s hd]
    exact .inr ⟨hp, _, rfl⟩
  · rw [startEnc_admitted sub cmd s hd]
    exact runTx_respondsAtEnd s.txAns (sending_startEnc s sub cmd data hd)

theorem hostEffect_respondsAtEnd {i : Instr} {s t : State} (he : HostEffect s t i)
    (hp : s.ph = .idle) : RespondsAtEnd s t := by
  cases he with
  | wrb v eq => exact eq ▸ runTx_respondsAtEnd s.txAns (sending_startWrb v s).1
  | rdb eq => exact eq ▸ (runRx_outcome s.rx { s with ph := .bRd, escp := false } rfl).respondsAtEnd
  | enc sub cmd data eq => exact eq ▸ startEnc_respondsAtEnd sub cmd data hp
  | dec eq => exact eq ▸ (runRx_outcome s.rx s.atHunt rfl).respondsAtEnd
  | rdreg r eq =>
    obtain ⟨x, -, e⟩ := readRegister_eq_respond r s
    exact eq ▸ e ▸ respond_respondsAtEnd hp x
  | wrreg r v eq =>
    rcases writeRegister_cases r v s with ⟨-, e⟩ | ⟨x, -, e⟩
    · exact eq ▸ e ▸ .inr ⟨hp, _, rfl⟩
    · exact eq ▸ e ▸ respond_respondsAtEnd hp x
  | srst eq => exact eq ▸ .inr ⟨rfl, _, rfl⟩
  | reserved w eq => exact eq ▸ respond_respondsAtEnd hp _

/-- Settles O58: every host operation runs from `IDLE`. -/
theorem oneResponsePerOperation : Obligations.OneResponsePerOperation := fun _ _ _ hi h =>
  hostEffect_respondsAtEnd (hostEffect_of_exec hi h) (idle_of_exec (.inl hi) h)

end Sys2Proof.Machine

/-! PROOFS. The pseudo-operations: the catalogue (O51), and `EXCHANGE` from its request to its answer (O53),
stopped at its request (O54), and what it leaves unchanged (O55). -/

namespace Sys2Proof.Machine

/-! ### The catalogue -/

/-- Settles O51: each is the `ENC` of its row, of at most four data bytes. -/
theorem catalogueSendsItsFrames : Obligations.CatalogueSendsItsFrames := by
  intro i sub cmd data s rest hi hp hq
  have henc : exec i s = exec (.enc sub cmd data) s ∧ data.length ≤ 4 := by
    rcases hi with ⟨rfl, rfl, rfl, rfl⟩ | ⟨rfl, rfl, rfl, rfl⟩ |
      ⟨red, green, blue, rfl, rfl, rfl, rfl⟩ | ⟨rfl, rfl, rfl, rfl⟩ <;> exact ⟨rfl, by simp⟩
  obtain ⟨hexec, hlen⟩ := henc
  obtain ⟨t, ht, htx, hans, hseq, hend, hrcv, -⟩ :=
    encWritesItsFrame sub cmd data s rest hp (hlen.trans (by decide)) hq
  exact ⟨t, hexec.trans ht, htx, hans, hseq, hend, hrcv⟩

/-! ### The two halves of an `EXCHANGE` -/

/-- `EXCHANGE` is its `ENC` with the host's half pending, and then that half
(44_serial_protocol_framer R200). -/
theorem exec_exchange (sub cmd : Byte) (data : List Byte) {s : State} (hp : s.ph = .idle) :
    exec (.exchange sub cmd data) s =
      .next (State.startEnc sub cmd data { s with exch := true }).followUp :=
  if_pos hp

theorem exec_exchange_of_enc {sub cmd : Byte} {data : List Byte} {s u : State}
    (henc : exec (.enc sub cmd data) { s with exch := true } = .next u) :
    exec (.exchange sub cmd data) s = .next u.followUp := by
  obtain ⟨hp, rfl⟩ := whenIdle_eq_next.mp henc
  exact exec_exchange sub cmd data hp

theorem exch_of_enc {sub cmd : Byte} {data : List Byte} {s u : State}
    (henc : exec (.enc sub cmd data) { s with exch := true } = .next u) : u.exch = true := by
  obtain ⟨-, -, hexch, -⟩ := sendersLeaveTheRest _ _ _ (.inl ⟨sub, cmd, data, rfl⟩) henc
  exact hexch

/-- An `ENC` that ends with `Ok` is followed by the `DEC`. -/
theorem exec_exchange_issues {sub cmd : Byte} {data : List Byte} {s u : State} {cause : Byte}
    (henc : exec (.enc sub cmd data) { s with exch := true } = .next u)
    (hend : EndedWith s u .ok cause) :
    exec (.exchange sub cmd data) s = exec .dec { u with exch := false } := by
  obtain ⟨hidle, hrsp, -⟩ := hend
  rw [exec_exchange_of_enc henc]
  exact followUp_issues hidle (exch_of_enc henc) (by simp [hrsp])

/-- An `ENC` that ends with anything else is the end of the `EXCHANGE`. -/
theorem exec_exchange_stops {sub cmd : Byte} {data : List Byte} {s u : State} {r : Response}
    {cause : Byte} (henc : exec (.enc sub cmd data) { s with exch := true } = .next u)
    (hend : EndedWith s u r cause) (hr : r ≠ .ok) :
    exec (.exchange sub cmd data) s = .next { u with exch := false } := by
  obtain ⟨hidle, hrsp, -⟩ := hend
  rw [exec_exchange_of_enc henc, followUp_drops hidle (exch_of_enc henc) (by simp [hrsp, hr])]

/-! ### From the request to the answer -/

/-- Settles O53: `encWritesItsFrame`, and `decParsesAnyRawForm` from where it ended. -/
theorem exchangeSendsThenReceives : Obligations.ExchangeSendsThenReceives := by
  intro sub cmd l u q c k data d noise raw s ready rest hp hd hans hn hl hraw hrx hk
  obtain ⟨e, henc, htx, hready, hseq, hend, ⟨hctrl, -, hrx', -, hcmd, -⟩, -⟩ :=
    encWritesItsFrame sub cmd data { s with exch := true } ready hp hd hans
  obtain ⟨t, hdec, hrest, ⟨-, hchk, hframe⟩, ⟨hctrl', htx', hready', -, hcmd', -⟩, hexch, -⟩ :=
    decParsesAnyRawForm l u q c k d noise raw { e with exch := false } rest hend.1 hn hl hraw
      (hrx'.trans hrx)
  have hen : State.chkEn { e with exch := false } = s.chkEn := by simp [State.chkEn, hctrl]
  have hpol : State.seqPolicy { e with exch := false } = s.seqPolicy := by
    simp [State.seqPolicy, hctrl]
  rw [hen, hpol, if_neg (by rcases hk with hk | hk <;> simp [hk])] at hframe
  obtain ⟨⟨hidle, hrsp, hcause⟩, hseq'⟩ := hframe
  refine ⟨t, (exec_exchange_issues henc hend).trans hdec, htx'.trans htx, hready'.trans hready, hrest,
    hidle, hcause, hchk, ?_, ?_, hctrl'.trans hctrl, hcmd'.trans hcmd, hexch⟩
  · rw [hrsp, hend.2.1]
    simp
  · rw [hseq', hseq]
    cases hs : s.seqPolicy with
    | true => simpa [sentSeq, State.seqPolicy] using hs
    | false => rfl

/-! ### A request that does not go out -/

/-- Settles O54: neither response of the `ENC` is `Ok`. -/
theorem exchangeStopsWithItsRequest : Obligations.ExchangeStopsWithItsRequest := by
  intro sub cmd data s hp
  constructor
  · intro n rest hd hn hans
    obtain ⟨u, henc, htx, -, -, hend, -, ⟨-, -, hrx, -⟩⟩ :=
      encWriteFaultLeavesPartialFrame sub cmd data { s with exch := true } n rest hp hd hn hans
    exact ⟨_, exec_exchange_stops henc hend (by simp), hend, hrx, rfl, htx⟩
  · intro hd
    obtain ⟨u, henc, hend, ⟨-, -, hrx, -⟩, -, htx, -⟩ :=
      encRefusesLongData sub cmd data { s with exch := true } hp hd
    exact ⟨_, exec_exchange_stops henc hend (by simp), hend, hrx, htx, rfl⟩

/-! ### The frame of `EXCHANGE` -/

theorem startEnc_txDrawn (sub cmd : Byte) (data : List Byte) (s : State) :
    (s.startEnc sub cmd data).txDrawn = s.txDrawn := by
  rcases Nat.lt_or_ge Config.maxData data.length with hd | hd
  · rw [startEnc_refused sub cmd s hd]; rfl
  · rw [startEnc_admitted sub cmd s hd]; exact (runTx_keeps _ _).txDrawn

/-- The host's half sends nothing and draws no answer. -/
theorem followUp_nothingSent (s : State) :
    NothingSent s s.followUp ∧ s.followUp.rxDrawn = s.rxDrawn := by
  rcases followUp_cases s with e | e | ⟨-, -, -, e⟩ <;> rw [e]
  · exact ⟨RxKeeps.rfl.nothingSent, rfl⟩
  · exact ⟨RxKeeps.rfl.nothingSent, rfl⟩
  · have hkeep := startDec_keeps { s with exch := false }
    exact ⟨hkeep.nothingSent, hkeep.rxDrawn⟩

/-- Settles O55: what the `ENC` leaves, and what the host's half leaves of that. -/
theorem exchangeLeavesTheRest : Obligations.ExchangeLeavesTheRest := by
  intro sub cmd data s t h
  have hp := idle_of_exec (.inr rfl) h
  obtain rfl : (State.startEnc sub cmd data { s with exch := true }).followUp = t :=
    Host.Outcome.next.inj ((exec_exchange sub cmd data hp).symm.trans h)
  have hadv := (startEnc_advances sub cmd data { s with exch := true }).1
  have hadv' := (followUp_advances (State.startEnc sub cmd data { s with exch := true })).1
  obtain ⟨⟨hctrl, -, -, hrxd, hcmd, hpin⟩, -⟩ :=
    startEnc_nothingReceived sub cmd data { s with exch := true }
  obtain ⟨⟨hctrl', -, -, htxd', hcmd', hpin', -⟩, hrxd'⟩ :=
    followUp_nothingSent (State.startEnc sub cmd data { s with exch := true })
  exact ⟨hctrl'.trans hctrl, hcmd'.trans hcmd, hpin'.trans hpin, (hadv.trans hadv').tx,
    (hadv.trans hadv').rx, (hadv.trans hadv').txAns, hrxd'.trans hrxd,
    htxd'.trans (startEnc_txDrawn sub cmd data { s with exch := true })⟩

end Sys2Proof.Machine

/-! PROOFS. No step stops the machine (O4): the phase of a state says what a step finds, and what it finds has
an effect there. -/

namespace Sys2Proof.Machine

/-- Whatever is in progress, a step serves the reset input first (70_reset_and_hazards R250; log 16). -/
theorem step_resets {s : State} (hpin : s.resetPin = true) : step s = .next s.applyReset := by
  have hfetch : s.fetch = .moved s.applyReset := by simp [State.fetch, hpin]
  unfold step
  rw [hfetch]

/-- An idle block steps on: the host's half of an `EXCHANGE`, a wait, or an operation, and the host port's
decoder yields only operations that an idle block accepts (44_serial_protocol_framer R192). -/
theorem step_next_of_idle {s : State} (hpin : s.resetPin = false) (hp : s.ph = .idle) :
    ∃ t, step s = .next t := by
  cases hx : s.exch with
  | true => exact ⟨_, step_follows_up hpin hp hx⟩
  | false =>
    cases hd : decode s.hostCmd with
    | error e => exact ⟨s, step_waits_host hpin hp hx hd⟩
    | ok found =>
      obtain ⟨i, rest⟩ := found
      rw [step_runs_host hpin hp hx hd]
      exact (busyHostPortTakesNothing i { s with hostCmd := rest } (.inl (decode_hostop hd))).2 hp

/-- A receiving block steps on: it takes an answer, a fault of the block included (60_exceptions R225), or
waits for one. -/
theorem step_next_of_receiving {s : State} (hpin : s.resetPin = false)
    (hr : s.ph.receiving = true) : ∃ t, step s = .next t := by
  cases hq : s.rx with
  | cons a as => exact ⟨_, step_takes_answer hpin hr hq⟩
  | nil =>
    rw [step_draws_rx hpin hr hq]
    cases Config.rxAnswer s.rxDrawn with
    | none => exact ⟨_, rfl⟩
    | some a =>
      exact ⟨_, step_takes_answer (s := { s with rx := [a], rxDrawn := s.rxDrawn + 1 }) hpin hr rfl⟩

/-- Settles O4, by what the state calls for: the reset input, the host port, a read or a write. -/
theorem stepNeverStops : Obligations.StepNeverStops := by
  intro s
  cases hpin : s.resetPin with
  | true => exact ⟨_, step_resets hpin⟩
  | false =>
    by_cases hp : s.ph = .idle
    · exact step_next_of_idle hpin hp
    · cases hr : s.ph.receiving with
      | true => exact step_next_of_receiving hpin hr
      | false => exact ⟨_, step_writes hpin (transmitting_of_busy hp hr)⟩

end Sys2Proof.Machine

/-! PROOFS. The reset input (O7), and the bound on a frame body (O30): every answer brings the end of the
operation nearer. -/

namespace Sys2Proof.Machine

/-- Settles O7. -/
theorem resetInputAtAnyTime : Obligations.ResetInputAtAnyTime := fun _ hpin =>
  ⟨_, step_resets hpin, rfl, rfl, rfl, rfl, rfl, rfl, rfl, rfl, rfl, rfl, rfl, rfl, rfl⟩

/-! ### How much of a body is outstanding -/

/-- The most logical bytes that can come before the operation in progress ends: a frame has 256 at most
(30_encoding R92), and from the length on `L` says how many. In `D_DATA` the byte waited for and the
checksum are two of them, wherever `IDX` stands. -/
def State.logicalLeft (s : State) : Nat :=
  match s.ph with
  | .bRd => 1
  | .dLen => 256
  | .dSub => s.dataLen + 4
  | .dSeq => s.dataLen + 3
  | .dCmd => s.dataLen + 2
  | .dData => s.dataLen - (s.lat.idx.toNat + 1) + 2
  | .dChk => 1
  | _ => 0

/-- The most answers that can come before the operation in progress ends: two for a logical byte
(30_encoding R92), one of them taken where `ESCP` is 1. -/
def State.answersLeft (s : State) : Nat := 2 * s.logicalLeft - s.escp.toNat

theorem logicalLeft_pos {s : State} (h : s.ph.inBody = true) : 0 < s.logicalLeft := by
  cases hp : s.ph <;> simp_all [State.logicalLeft, Phase.inBody]

theorem logicalLeft_of_idle {s : State} (h : s.ph = .idle) : s.logicalLeft = 0 := by
  simp [State.logicalLeft, h]

theorem dataLen_lt (s : State) : s.dataLen < 252 := by
  have : s.lat.l.toNat < 256 := s.lat.l.isLt
  simp only [State.dataLen, Config.overhead]
  omega

/-- With n data bytes handled the other data and the checksum are left, whether the next byte is of the
data or is the checksum (10_state R31). -/
theorem logicalLeft_dataPhase {s : State} {n : Nat}
    (hp : s.ph = dataPhase .dData .dChk n s.dataLen) (hn : n < s.dataLen → s.lat.idx.toNat = n) :
    s.logicalLeft = s.dataLen - n + 1 := by
  unfold dataPhase at hp
  split at hp
  · next hlt =>
    simp only [State.logicalLeft, hp, hn hlt]
    omega
  · simp only [State.logicalLeft, hp]
    omega

theorem dataPhase_inBody (n m : Nat) : (dataPhase .dData .dChk n m).inBody = true := by
  unfold dataPhase
  split <;> rfl

/-- The body goes on or the operation has ended: the hunt is over. -/
def State.PastHunt (s : State) : Prop := s.ph = .idle ∨ s.ph.inBody = true

/-- `t` is past the hunt and has less of the body outstanding than `s`. -/
def NearerEnd (s t : State) : Prop := t.PastHunt ∧ t.logicalLeft < s.logicalLeft

theorem nearerEnd_of_idle {s t : State} (h : s.ph.inBody = true) (ht : t.ph = .idle) :
    NearerEnd s t := by
  refine ⟨.inl ht, ?_⟩
  rw [logicalLeft_of_idle ht]
  exact logicalLeft_pos h

theorem takeLength_nearerEnd (v : Byte) {s : State} (hp : s.ph = .dLen) :
    NearerEnd s (s.takeLength v) := by
  unfold State.takeLength
  split
  · exact nearerEnd_of_idle (by rw [hp]; rfl) rfl
  · have hbound := dataLen_lt { s with lat := { s.lat with l := v }, ph := .dSub }
    refine ⟨.inr rfl, ?_⟩
    simp only [State.logicalLeft, hp] at hbound ⊢
    omega

theorem takeCommand_nearerEnd (v : Byte) {s : State} (hp : s.ph = .dCmd) :
    NearerEnd s (s.takeCommand v) := by
  have hleft : (s.takeCommand v).logicalLeft = s.dataLen - 0 + 1 :=
    logicalLeft_dataPhase rfl fun _ => rfl
  refine ⟨.inr (dataPhase_inBody _ _), ?_⟩
  rw [hleft]
  simp only [State.logicalLeft, hp]
  omega

theorem takeData_nearerEnd (v : Byte) {s : State} (hp : s.ph = .dData) :
    NearerEnd s (s.takeData v) := by
  have hidx (hlt : s.lat.idx.toNat + 1 < s.dataLen) :
      (s.lat.idx + 1).toNat = s.lat.idx.toNat + 1 := by
    have := dataLen_lt s
    bv_omega
  have hleft : (s.takeData v).logicalLeft = s.dataLen - (s.lat.idx.toNat + 1) + 1 :=
    logicalLeft_dataPhase rfl hidx
  refine ⟨.inr (dataPhase_inBody _ _), ?_⟩
  rw [hleft]
  simp only [State.logicalLeft, hp]
  omega

/-- A logical byte brings the end nearer, whatever the phase makes of it (42_frame_decoder R140). -/
theorem takeLogical_nearerEnd (v : Byte) {s : State} (h : s.ph.inBody = true) :
    NearerEnd s (s.takeLogical v) := by
  cases hp : s.ph <;> simp only [State.takeLogical, hp]
  case bRd => exact nearerEnd_of_idle h rfl
  case dLen => exact takeLength_nearerEnd v hp
  case dSub | dSeq => exact ⟨.inr rfl, by simp [State.logicalLeft, hp, State.dataLen]⟩
  case dCmd => exact takeCommand_nearerEnd v hp
  case dData => exact takeData_nearerEnd v hp
  case dChk => exact nearerEnd_of_idle h (takeChecksum_ph v s)
  all_goals simp [hp, Phase.inBody] at h

/-! ### A run over as many answers -/

/-- Every answer is one answer less to come: a sentinel is the first of the two its logical byte may take,
and an answer that is no byte ends the operation (60_exceptions R225). -/
theorem takeAnswer_answersLeft (a : RxAnswer) {s : State} (h : s.ph.inBody = true) :
    (s.takeAnswer a).PastHunt ∧ (s.takeAnswer a).answersLeft < s.answersLeft := by
  have whole {t : State} (ht : NearerEnd s t) : t.PastHunt ∧ t.answersLeft < s.answersLeft := by
    have hesc := s.escp.toNat_le
    refine ⟨ht.1, ?_⟩
    have hlt := ht.2
    simp only [State.answersLeft]
    omega
  rcases byte_or_fault s.readCtx a with ⟨b, rfl⟩ | ⟨f, hf⟩
  · simp only [State.takeAnswer, State.takeRaw, if_neg (inBody_ne_hunt h), State.takeEscaped]
    split
    · exact whole (takeLogical_nearerEnd (s := { s with escp := false }) (b + 1) h)
    · next he =>
      split
      · have hpos := logicalLeft_pos h
        refine ⟨.inr h, ?_⟩
        change 2 * s.logicalLeft - 1 < 2 * s.logicalLeft - s.escp.toNat
        simp [he, hpos]
      · exact whole (takeLogical_nearerEnd b h)
  · rw [takeAnswer_fault hf]
    exact whole (nearerEnd_of_idle h (State.raiseFault_ph s f))

/-- As many answers as can be left end the operation (70_reset_and_hazards R266). -/
theorem runRx_ends {as : List RxAnswer} {s : State} (hs : s.PastHunt)
    (hlen : s.answersLeft ≤ as.length) : (runRx as s).ph = .idle := by
  induction as generalizing s with
  | nil =>
    rcases hs with hp | hb
    · exact hp
    · have hpos := logicalLeft_pos hb
      have hesc := s.escp.toNat_le
      simp only [State.answersLeft, List.length_nil] at hlen
      omega
  | cons a as ih =>
    rcases hs with hp | hb
    · rw [runRx_idle _ _ (by rw [hp]; rfl)]
      exact hp
    · obtain ⟨ht, hlt⟩ := takeAnswer_answersLeft a hb
      rw [runRx_cons _ _ _ (receiving_of_inBody hb)]
      exact ih ht (Nat.le_of_lt_succ (hlt.trans_le hlen))

/-- Settles O30: at the length byte 256 logical bytes can be left, and so 512 answers. -/
theorem frameBodyIsBounded : Obligations.FrameBodyIsBounded := by
  intro s noise as hp hn hlen hq
  have hrun : s.startDec = runRx as { s.atHunt with ph := .dLen } :=
    startDec_sync (raw := []) hn hq
  have hidle : s.startDec.ph = .idle := by
    rw [hrun]
    exact runRx_ends (.inr rfl) hlen
  have hrsp : RespondsAtEnd s s.startDec := oneResponsePerOperation .dec s _ rfl (exec_dec hp)
  obtain ⟨-, r, hr⟩ := hrsp.resolve_left fun hbusy => hbusy.1 hidle
  exact ⟨_, r, exec_dec hp, hidle, hr⟩

end Sys2Proof.Machine
